-- ==== Sys2Proof/Word.lean ====
section
/-! DEFINITION. The word types of the block: a byte, a ring index, and the widths of the registers of
spec/10_state.md R20 and R30 (log 5). -/

namespace Sys2Proof

/-- A byte is 8 bits, value 0..255 (R9). -/
abbrev Byte := BitVec 8

/-- An index into `RING`: 12 bits, 0..4095, arithmetic modulo 4096 (R7 `RING_AW`, R21). -/
abbrev RingIndex := BitVec 12

/-- A count of staged bytes or an index into `STAGE`: 8 bits (R7 `STAGE_AW`, R24, R25). -/
abbrev StageCount := BitVec 8

/-- The index of a command of a run: 4 bits, 0..8 (R30 `BIT`). -/
abbrev CmdIndex := BitVec 4

/-- A number of bytes of one copy: 5 bits (R30 `LEN`, `IDX`). -/
abbrev CopyCount := BitVec 5

end Sys2Proof
end

