-- ==== Sys2Proof/Config.lean ====
section
/-! DEFINITION. The constants of spec/00_scope.md R7, and what an unlisted address of each internal RAM reads as. -/

namespace Sys2Proof.Config

/-- `RING_SIZE`: bytes in the ring buffer (R7). -/
abbrev ringSize : Nat := 4096

/-- `FILLER`: the byte the ring is pre-filled with (R7, R21). -/
abbrev filler : Byte := 0x20#8

/-- `START_OFFSET` = 4096 - 18, the initial write cursor (R7, R22). -/
abbrev startOffset : RingIndex := 4078#12

/-- `THRESHOLD`: the bias added to the raw length field (R7). -/
abbrev threshold : Nat := 3

/-- `MIN_COPY`: the smallest copy length (R7). -/
abbrev minCopy : Nat := 3

/-- `MAX_COPY`: the largest copy length (R7). -/
abbrev maxCopy : Nat := 18

/-- `CMDS_PER_RUN`: commands per bitmap byte (R7). -/
abbrev cmdsPerRun : Nat := 8

/-- `STAGE_CAP`: bytes in the staging RAM (R7, R23, the spec's decision D2). -/
abbrev stageCap : Nat := 144

/-- What an unlisted address of `RING` reads as: the fill of `INIT` (R40). -/
abbrev ringUnlisted : Byte := filler

/-- What an unlisted address of `STAGE` reads as. The spec leaves these bytes unspecified (R39, R40) and no rule reads
them: DESIGN CHOICE, unsafe, log 4. -/
abbrev stageUnlisted : Byte := 0x00#8

end Sys2Proof.Config
end

