-- ==== Sys2Proof/Syntax.lean ====
section
/-! DEFINITION. The instructions: one constructor per row of spec/opcode_table.json, and the three points at which the
decoder pulls one from the stream. -/

namespace Sys2Proof

/-- The five operations of spec/30_encoding.md R106, with their operands as the notation of R104 writes them. -/
inductive Instr where
  /-- `BMP f`: the bitmap byte of a run; bit i selects the kind of command i (R91, R151). -/
  | bmp (f : Byte)
  /-- `LIT d`: emit the byte d (R94, R153). -/
  | lit (d : Byte)
  /-- `CPY start, len`: emit `len` bytes read from the ring at `start` (R95, R96, R155). -/
  | cpy (start : RingIndex) (len : CopyCount)
  /-- `INIT`: initialise the decoder state (R120). -/
  | init
  /-- `READ n`: deliver up to n decompressed bytes (R180). `LEN_WIDTH` is open (D3); n is a natural number, log 2. -/
  | read (n : Nat)
deriving DecidableEq, Repr

/-- The three pull points of the decoder, which are also the three labels of `Exhausted` (R15, R251). -/
inductive PullPoint where
  /-- `X_BMP`: the bitmap pull at the start of a run. -/
  | xBmp
  /-- `X_LIT`: the operand pull of a literal. -/
  | xLit
  /-- `X_CPY`: the operand pull of a copy. -/
  | xCpy
deriving DecidableEq, Repr

/-- The count k of the pull issued at each point: 1 for a bitmap or a literal, 2 for a copy operand (R58). -/
def PullPoint.count : PullPoint → Nat
  | .xBmp => 1
  | .xLit => 1
  | .xCpy => 2

/-- The word at the host's command port: the 1-bit operation select and the operand N (R102, R103). -/
structure HostWord where
  op : BitVec 1
  n  : Nat
deriving DecidableEq, Repr

/-- What the decoder reads: a command word of the host, or the bytes a pull has been answered with at one of the
three points. The kind of a stream command is told by where the decoder stands and not by its bytes (R90, R106). -/
inductive Code where
  | host (w : HostWord)
  | stream (at_ : PullPoint) (bytes : List Byte)
deriving DecidableEq, Repr

end Sys2Proof
end

