-- ==== Sys2Proof/Machine/State.lean ====
section
/-! DEFINITION. The state of the machine as plain data: the five items of spec/10_state.md R20, the transient registers
of R30, the two ghosts the spec names (R26, R29), and the ports with what stands behind them. -/

namespace Sys2Proof.Machine

/-- A memory: (address, byte) cells, addresses strictly rising, no cell equal to what an unlisted address reads as. -/
abbrev Memory := List Host.Cell

/-- The nine phases of the sequencer (R210). `wait` holds the pull that is outstanding, which tells the phase to resume
(R221). -/
inductive Phase where
  /-- no operation in progress; waits for the host -/
  | idle
  /-- top of the `READ` loop -/
  | loop
  /-- deliver one staged byte, or decide what follows the drain -/
  | drain
  /-- pull the bitmap -/
  | bmpf
  /-- dispatch command `BIT`: pull its operand -/
  | cmd
  /-- emit one byte of the current `CPY` -/
  | copy
  /-- stop test -/
  | check
  /-- return `FILLED` to the host -/
  | ret
  /-- a pull is outstanding -/
  | wait (at_ : PullPoint)
deriving DecidableEq, Repr

/-- The source's answer to one pull: `fail`, or `ok` with the bytes in stream order (R13, R59, R60). -/
inductive Answer where
  | fail
  | ok (bytes : List Byte)
deriving DecidableEq, Repr

/-- The source behind the source port (R58 to R63), as plain data. DESIGN CHOICE, safe, log 6. -/
inductive Source where
  /-- `STREAM(S)` of R62 at position `pos`. `spend` picks the variant whose failed pull sets the position to |S|. -/
  | stream (bytes : List Byte) (pos : Nat) (spend : Bool)
  /-- The oracle of R63: the answers to the pulls to come, in order. When the list is empty a pull is never answered. -/
  | oracle (answers : List Answer)
deriving DecidableEq, Repr

/-- What the host does next while the core is idle (R63, R292, R295). -/
inductive HostInput where
  /-- place a command word at the port -/
  | request (w : HostWord)
  /-- attach a source -/
  | attach (src : Source)
deriving DecidableEq, Repr

/-- What can be observed of the block, in order (R8, R19, D1). -/
inductive Event where
  /-- `SrcPull(k)` issued -/
  | pull (k : Nat)
  /-- the source's answer to the outstanding pull -/
  | answer (a : Answer)
  /-- `DestWrite(j, v)` -/
  | destWrite (j : Nat) (v : Byte)
  /-- a `READ` completed and returned `actual_length` -/
  | returned (actual : Nat)
  /-- an `INIT` completed -/
  | initDone
deriving DecidableEq, Repr

/-- Everything the machine holds. -/
structure State where
  /-- `RING`, 4096 bytes (R21) -/
  ring : Memory
  /-- `WPOS` (R22) -/
  wpos : RingIndex
  /-- `STAGE`, 144 bytes (R23) -/
  stage : Memory
  /-- `FILL` (R24) -/
  fill : StageCount
  /-- `RD` (R25) -/
  rd : StageCount
  /-- `VALID`, the ghost of R26: an `INIT` has completed -/
  valid : Bool
  /-- the ghost `out` of R29: the bytes emitted since the last `INIT`, newest first; no step reads it -/
  emitted : List Byte
  /-- `N` (R31) -/
  n : Nat
  /-- `FILLED` (R31) -/
  filled : Nat
  /-- `BMP` (R32) -/
  bmp : Byte
  /-- `BIT` (R32) -/
  bit : CmdIndex
  /-- `C0` (R33) -/
  c0 : Byte
  /-- `C1` (R33) -/
  c1 : Byte
  /-- `START` (R33) -/
  start : RingIndex
  /-- `LEN` (R33) -/
  len : CopyCount
  /-- `IDX` (R30, R217) -/
  idx : CopyCount
  /-- `PHASE` (R210) -/
  phase : Phase
  /-- the command word standing at the host's port, if any (R102) -/
  port : Option HostWord
  /-- what the host does next, each input taken while the core is idle (R292, R295), log 9 -/
  host : List HostInput
  /-- the source attached to the source port (R58), log 6 -/
  source : Source
  /-- the destination of the current `READ`: the cells written so far (R54, R64 to R66), log 15 -/
  dest : Memory
  /-- the trace, oldest event first (R8, R19); no step reads it, log 14 -/
  trace : List Event
deriving DecidableEq, Repr

/-- Why the machine stops with a fault. The spec gives the block no fault (R264); these three name accesses that no
state satisfying the model's invariant can make. Safe, log 13. -/
inductive Fault where
  /-- raised by `EMIT` and by the drain when the index into `STAGE` is 144 or more (R52, R131). Safe. -/
  | stageIndex
  /-- raised by phase `CMD` when `BIT` > 8 (R216 has no case for it). Safe. -/
  | bitIndex
  /-- raised by phase `COPY` when `IDX` > `LEN` (R217 has no case for it). Safe. -/
  | copyIndex
deriving DecidableEq, Repr

/-- Why the machine has no step. -/
inductive Refusal where
  /-- raised by an instruction that has no meaning in the model; no arm of `exec` uses it. Safe. -/
  | notModelled (mnemonic : String)
  /-- raised by `READ` while `VALID` = 0 (R291, R264). Safe. -/
  | readBeforeInit
  /-- raised by a host request while `PHASE` is not `IDLE` (R72, R124, R212, R264). Safe. -/
  | busy
  /-- raised in phase `WAIT` when the source never answers the outstanding pull: the hang of R61 and R261. Safe, log 7. -/
  | pullUnanswered
  /-- raised in phase `WAIT` when a successful answer does not carry the number of bytes asked for, against the
  source's contract (R59). Safe, log 8. -/
  | sourceContract
deriving DecidableEq, Repr

/-- The machine after power-on: `PHASE` = `IDLE` and `VALID` = 0 (R210, R26). The spec leaves every other value
unspecified (R40, D7): `RING`, `WPOS`, `FILL` and `RD` are given the reset values R290 points to, `STAGE` and the
transient registers zero, and the environment is empty. DESIGN CHOICE, unsafe, log 3. -/
def State.reset : State where
  ring := []
  wpos := Config.startOffset
  stage := []
  fill := 0#8
  rd := 0#8
  valid := false
  emitted := []
  n := 0
  filled := 0
  bmp := 0#8
  bit := 0#4
  c0 := 0#8
  c1 := 0#8
  start := 0#12
  len := 0#5
  idx := 0#5
  phase := .idle
  port := none
  host := []
  source := .oracle []
  dest := []
  trace := []

end Sys2Proof.Machine
end

