-- ==== Sys2Proof/Machine/Flags.lean ====
section
/-! DEFINITION. The conditions the block computes where it uses them; none is stored (spec/10_state.md R35). -/

namespace Sys2Proof.Machine

/-- `FILLED` < `N`: the destination is not full, the loop condition of `READ` (R35, R180). -/
def State.roomLeft (s : State) : Bool := decide (s.filled < s.n)

/-- `RD` = `FILL`: the staging RAM is drained (R35, R184, D12). -/
def State.drained (s : State) : Bool := decide (s.rd = s.fill)

/-- `RD` < `FILL`: a staged byte is still unread (R214). -/
def State.staged (s : State) : Bool := decide (s.rd < s.fill)

/-- `FILL` = 0: nothing was produced, the stop test of `READ` (R35, R185). -/
def State.nothingProduced (s : State) : Bool := decide (s.fill = 0#8)

/-- `BMP[BIT]`: the next command is a literal (R90, R91, R216). -/
def State.literalNext (s : State) : Bool := s.bmp.getLsbD s.bit.toNat

end Sys2Proof.Machine
end

