-- ==== Sys2Proof/WellFormed.lean ====
section
/-! DEFINITION. Which instructions exist: the operand ranges of spec/30_encoding.md R96 and R104. -/

namespace Sys2Proof

/-- A copy length is 3 to 18; every other operand is as wide as its field, and all its values are legal (R96, R98). -/
def Instr.wellFormed : Instr → Bool
  | .bmp _ => true
  | .lit _ => true
  | .cpy _ len => decide (Config.minCopy ≤ len.toNat) && decide (len.toNat ≤ Config.maxCopy)
  | .init => true
  | .read _ => true

end Sys2Proof
end

