-- ==== Sys2Proof/Decode.lean ====
section
/-! DEFINITION. The decoder and the encoder, written from the formats of spec/30_encoding.md R90 to R103 and
spec/opcode_table.json, and the layout of a table row's word. -/

namespace Sys2Proof

/-- Why the decoder turns bytes away. No byte value is illegal (R98): only the number of bytes can be wrong, which a
source that keeps its contract (R59) never causes. -/
inductive Reject where
  | tooFewBytes
  | tooManyBytes
deriving DecidableEq, Repr

/-- `START` = {c1[7:4], c0[7:0]} (R96). -/
def copyStart (c0 c1 : Byte) : RingIndex := c1.extractLsb' 4 4 ++ c0

/-- `LEN` = zext_5(c1[3:0]) + 3 (R96). -/
def copyLen (c1 : Byte) : CopyCount := (c1.extractLsb' 0 4).setWidth 5 + 3#5

/-- The host's command word: `op` = 0 is `INIT`, `op` = 1 is `READ` with operand N (R102). Total: there is no reserved
select value. -/
def decodeHost (w : HostWord) : Instr :=
  if w.op = 0#1 then .init else .read w.n

/-- The instruction at a pull point, from the bytes the pull has brought, in stream order (R90 to R95). -/
def decodeStream : PullPoint → List Byte → Except Reject Instr
  | .xBmp, [f] => .ok (.bmp f)
  | .xLit, [d] => .ok (.lit d)
  | .xCpy, [c0, c1] => .ok (.cpy (copyStart c0 c1) (copyLen c1))
  | p, bytes => .error (if bytes.length < p.count then .tooFewBytes else .tooManyBytes)

/-- The decoder: total on every code, rejecting by name. -/
def decode : Code → Except Reject Instr
  | .host w => .ok (decodeHost w)
  | .stream p bytes => decodeStream p bytes

/-- `c0` of a copy operand: s & 0xFF (R97). -/
def copyByte0 (start : RingIndex) : Byte := BitVec.ofNat 8 (start.toNat &&& 0xFF)

/-- `c1` of a copy operand: ((s >> 4) & 0xF0) | (l - 3) (R97). -/
def copyByte1 (start : RingIndex) (len : CopyCount) : Byte :=
  BitVec.ofNat 8 (((start.toNat >>> 4) &&& 0xF0) ||| (len.toNat - Config.threshold))

/-- The encoder: where an instruction stands and its words (R91, R94, R97, R102). -/
def encode : Instr → Code
  | .bmp f => .stream .xBmp [f]
  | .lit d => .stream .xLit [d]
  | .cpy start len => .stream .xCpy [copyByte0 start, copyByte1 start len]
  | .init => .host { op := 0#1, n := 0 }
  | .read n => .host { op := 1#1, n := n }

/-- The commands of a run with bitmap `f`, from command `8 - k` on, read from a byte string, and what is left of it. The
list stops before the first command whose operand is not complete (R90, R99). -/
def decodeCommands (f : Byte) : Nat → List Byte → List Instr × List Byte
  | 0, bytes => ([], bytes)
  | k + 1, bytes =>
    if f.getLsbD (Config.cmdsPerRun - (k + 1)) then
      match bytes with
      | d :: rest =>
        let (cmds, left) := decodeCommands f k rest
        (.lit d :: cmds, left)
      | [] => ([], [])
    else
      match bytes with
      | c0 :: c1 :: rest =>
        let (cmds, left) := decodeCommands f k rest
        (.cpy (copyStart c0 c1) (copyLen c1) :: cmds, left)
      | short => ([], short)

/-- One run read from a byte string: its bitmap, its complete commands in order, and the bytes after them; nothing when
there is no bitmap byte (R90). -/
def decodeRun : List Byte → Option (Byte × List Instr × List Byte)
  | [] => none
  | f :: bytes => some (f, decodeCommands f Config.cmdsPerRun bytes)

/-- The number of 1 bits of a bitmap: how many of its commands are literals (R93). -/
def popcount (f : Byte) : Nat := ((List.range 8).filter fun i => f.getLsbD i).length

/-- How a word of spec/opcode_table.json is laid out as a code. The table's pattern is read as one number: `LIT` is the
select bit 1 over d, `CPY` the select bit 0 over W = {c1, c0}, c0 first in the stream (R95, R106). A row counts in whole
bytes, so `BMP`, `INIT` and `READ` all have 8 bits: the two fixed patterns 0 and 1 are read as the host's `op`, every
other value as a bitmap. DESIGN CHOICE, safe, log 11. The operand N of `READ` has no bits in the table and is 0. -/
def tableCode (nbits w : Nat) : Option Code :=
  if nbits ≤ 8 then
    if w ≤ 1 then some (.host { op := BitVec.ofNat 1 w, n := 0 })
    else if w < 256 then some (.stream .xBmp [BitVec.ofNat 8 w])
    else none
  else if nbits ≤ 16 then
    if w / 256 = 1 then some (.stream .xLit [BitVec.ofNat 8 w]) else none
  else if nbits ≤ 24 then
    if w < 65536 then some (.stream .xCpy [BitVec.ofNat 8 w, BitVec.ofNat 8 (w / 256)]) else none
  else none

/-- The instruction the decoder reads from a word numbered as spec/opcode_table.json numbers it (log 11). -/
def decodeTableWord (nbits w : Nat) : Option Instr :=
  match tableCode nbits w with
  | none => none
  | some c =>
    match decode c with
    | .ok i => some i
    | .error _ => none

end Sys2Proof
end

