-- ==== Sys2Proof/Machine/Memory.lean ====
section
/-! DEFINITION. Memory in one canonical form: the operations over the cells of `RING`, `STAGE` and the destination
(spec/00_scope.md R12, spec/20_memory.md R50 to R54). Every access is one byte (R57). -/

namespace Sys2Proof.Machine

/-- The cell listed at an address, if any. -/
def Memory.lookup : Memory → Nat → Option Byte
  | [], _ => none
  | (b, v) :: m, a => if b = a then some v else Memory.lookup m a

/-- Read one byte, where an unlisted address reads as `dflt`. -/
def Memory.read (dflt : Byte) (m : Memory) (a : Nat) : Byte := (m.lookup a).getD dflt

/-- List `v` at `a`, keeping the addresses rising. -/
def Memory.put : Memory → Nat → Byte → Memory
  | [], a, v => [(a, v)]
  | (b, w) :: m, a, v =>
    if a < b then (a, v) :: (b, w) :: m
    else if a = b then (a, v) :: m
    else (b, w) :: Memory.put m a v

/-- Unlist an address. -/
def Memory.remove : Memory → Nat → Memory
  | [], _ => []
  | (b, w) :: m, a => if b = a then Memory.remove m a else (b, w) :: Memory.remove m a

/-- Write one byte in the canonical form: a byte equal to what an unlisted address reads as is not listed. `unlisted` is
`none` for a memory whose unlisted addresses hold no value (the destination, R66). -/
def Memory.write (unlisted : Option Byte) (m : Memory) (a : Nat) (v : Byte) : Memory :=
  if unlisted = some v then m.remove a else m.put a v

/-- Addresses strictly rising from above `lo`, all below `size`, no cell equal to the unlisted byte. -/
def Memory.rising (unlisted : Option Byte) (size : Nat) : Nat → Memory → Bool
  | _, [] => true
  | lo, (a, v) :: m =>
    decide (lo ≤ a) && decide (a < size) && decide (unlisted ≠ some v) && Memory.rising unlisted size (a + 1) m

/-- The canonical form of a memory of `size` bytes. -/
def Memory.wf (unlisted : Option Byte) (size : Nat) (m : Memory) : Bool := m.rising unlisted size 0

end Sys2Proof.Machine
end

