-- ==== Sys2Proof/Machine/Operands.lean ====
section
/-! DEFINITION. The operand forms of the block (spec/42_run_commands.md R165): the ring cell a copy reads, the staged byte
the drain reads, and the two operand bytes of a `CPY`. A literal's operand is its byte itself (R96). -/

namespace Sys2Proof.Machine

/-- One byte of `RING` (R12, R51). -/
def State.ringRead (s : State) (a : RingIndex) : Byte := s.ring.read Config.ringUnlisted a.toNat

/-- One byte of `STAGE` (R12, R52). -/
def State.stageRead (s : State) (a : Nat) : Byte := s.stage.read Config.stageUnlisted a

/-- One cell of the destination: nothing where the current `READ` has not written (R66). -/
def State.destRead (s : State) (j : Nat) : Option Byte := s.dest.lookup j

/-- The ring index a copy reads at iteration i: `(start + i) mod 4096` (R134). -/
def copyIndexAt (start : RingIndex) (i : Nat) : RingIndex := start + BitVec.ofNat 12 i

/-- The byte the copy in progress reads next: `RING[(START + IDX) mod 4096]` (R217). -/
def State.copySource (s : State) : Byte := s.ringRead (copyIndexAt s.start s.idx.toNat)

/-- The first operand byte of a `CPY` as register `C0` holds it, recovered from the decoded operand by R97. DEDUCED,
safe, log 17. -/
def copyOperand0 (start : RingIndex) : Byte := copyByte0 start

/-- The second operand byte of a `CPY` as register `C1` holds it, recovered from the decoded operand by R97. DEDUCED,
safe, log 17. -/
def copyOperand1 (start : RingIndex) (len : CopyCount) : Byte := copyByte1 start len

end Sys2Proof.Machine
end

