-- ==== Sys2Proof/Machine/Source.lean ====
section
/-! DEFINITION. The source port: what a pull of k bytes is answered with, and what is left of the source
(spec/20_memory.md R58 to R63). -/

namespace Sys2Proof.Machine

/-- One pull `SrcPull(k)`: the answer and the source after it; nothing when the pull is never answered.
`STREAM(S)` answers with the next k bytes when they exist and otherwise fails, leaving the position as it is or, in the
variant, setting it to |S| (R62). The oracle gives its next answer (R63). -/
def Source.pull (k : Nat) : Source → Option (Answer × Source)
  | .stream bytes pos spend =>
    if pos + k ≤ bytes.length then
      some (.ok ((bytes.drop pos).take k), .stream bytes (pos + k) spend)
    else
      some (.fail, .stream bytes (if spend then bytes.length else pos) spend)
  | .oracle [] => none
  | .oracle (a :: answers) => some (a, .oracle answers)

/-- The source with `bytes` placed before everything it has still to deliver. -/
def Source.supply (bytes : List Byte) : Source → Source
  | .stream all pos spend => .stream (all.take pos ++ bytes ++ all.drop pos) (min pos all.length) spend
  | .oracle answers => .oracle (.ok bytes :: answers)

end Sys2Proof.Machine
end

