-- ==== Sys2Proof/Machine/Ops.lean ====
section
/-! DEFINITION. The named operations over the state that the meanings, the sequencer and the big-step operations share:
`INIT`'s effect, `EMIT`, `DestWrite`, the two halves of `SrcPull`, the start and the end of a `READ`, and the entry of
`Exhausted`. -/

namespace Sys2Proof.Machine

/-- Run `f` after an outcome that is a next state. -/
def andThen (o : Host.Outcome State Fault Refusal) (f : State → Host.Outcome State Fault Refusal) :
    Host.Outcome State Fault Refusal :=
  match o with
  | .next s => f s
  | .fault r => .fault r
  | .refused r => .refused r

/-- One more event at the end of the trace (R8). -/
def State.record (s : State) (e : Event) : State := { s with trace := s.trace ++ [e] }

/-- The effect of `INIT` (R120): the ring all filler, `WPOS` 4078, nothing staged, `VALID` 1. `STAGE`, the transient
registers and the source are not touched (R120, R122). The ghost of R29 starts again. -/
def State.initialised (s : State) : State :=
  { s with
    ring := []
    wpos := Config.startOffset
    fill := 0#8
    rd := 0#8
    valid := true
    emitted := [] }

/-- The dual write of `EMIT`, with the indices `FILL` and `WPOS` had before it (R130). -/
def State.emitByte (s : State) (b : Byte) : State :=
  { s with
    stage := s.stage.write (some Config.stageUnlisted) s.fill.toNat b
    ring := s.ring.write (some Config.ringUnlisted) s.wpos.toNat b
    fill := s.fill + 1#8
    wpos := s.wpos + 1#12
    emitted := b :: s.emitted }

/-- `EMIT(b)` (R130). `FILL` is at most 143 whenever a rule invokes it (R131); beyond that there is no staging byte to
write, and the model faults. Safe, log 13. -/
def State.emit (s : State) (b : Byte) : Host.Outcome State Fault Refusal :=
  if s.fill.toNat < Config.stageCap then .next (s.emitByte b) else .fault .stageIndex

/-- `DestWrite(j, v)` (R64): it always succeeds. -/
def State.destWrite (s : State) (j : Nat) (v : Byte) : State :=
  { s with dest := s.dest.write none j v }.record (.destWrite j v)

/-- One byte of the drain: `DestWrite(FILLED, STAGE[RD])`, then both cursors advance (R183, R214 case a). -/
def State.deliverByte (s : State) : State :=
  { s.destWrite s.filled (s.stageRead s.rd.toNat) with
    rd := s.rd + 1#8
    filled := s.filled + 1 }

/-- The drain's read of `STAGE[RD]`; beyond index 143 there is no staging byte to read, and the model faults. Safe, log
13. -/
def State.deliver (s : State) : Host.Outcome State Fault Refusal :=
  if s.rd.toNat < Config.stageCap then .next s.deliverByte else .fault .stageIndex

/-- The start of a `READ`: `N <- n`, `FILLED <- 0` (R180, R182, R212), and a new destination (R54). -/
def State.readStarted (s : State) (n : Nat) : State :=
  { s with n := n, filled := 0, dest := [] }

/-- The end of a `READ`: `actual_length` = `FILLED` is handed to the host, and the core is idle (R186, R219). -/
def State.readReturned (s : State) : State :=
  { s with phase := .idle }.record (.returned s.filled)

/-- A pull is issued at point `p`: it is recorded, and the core waits (R221). -/
def State.pullIssued (s : State) (p : PullPoint) : State :=
  { s with phase := .wait p }.record (.pull p.count)

/-- The source has answered: what is left of the source, and the answer as an event (R59, R60). -/
def State.answered (s : State) (a : Answer) (src : Source) : State :=
  { s with source := src }.record (.answer a)

/-- A run starts: `FILL <- 0` (R151 first step, R214 case b). -/
def State.runStarted (s : State) : State := { s with fill := 0#8 }

/-- TAKING THE EXCEPTION `Exhausted`, from any of the three pull points (R252, R222): the run ends, every write already
made stays, and the `READ` goes on at `RD <- 0` and its stop test. Nothing is saved and no cause is kept (R251, R256).
There is no return from it: the handler is the `READ` itself (R257). -/
def State.exhausted (s : State) : State := { s with rd := 0#8, phase := .check }

/-- The end of a complete run: the same two effects (R216 case a, R222). -/
def State.runCompleted (s : State) : State := { s with rd := 0#8, phase := .check }

/-- The next command of the run: `BIT <- BIT + 1`, back to dispatch (R216, R217). -/
def State.commandDone (s : State) : State := { s with bit := s.bit + 1#4, phase := .cmd }

end Sys2Proof.Machine
end

