-- ==== Sys2Proof/Machine/HostOps.lean ====
section
/-! DEFINITION. The meanings of the two host operations (spec/40_init.md R120 to R124, spec/43_incremental_read.md R180,
spec/44_sequencer_fsm.md R211, R212). A host request outside phase `IDLE` is refused (R72, R124). -/

namespace Sys2Proof.Machine

/-- `INIT`: one indivisible step; `PHASE` stays `IDLE`; no pull, no destination write (R120, R121, R211). -/
def execInit (s : State) : Host.Outcome State Fault Refusal :=
  if s.phase = .idle then .next (s.initialised.record .initDone) else .refused .busy

/-- `READ n`: `N <- n`, `FILLED <- 0`, and the sequencer goes through the loop of R180 until it returns `FILLED` (R212 to
R219). Refused while `VALID` = 0 (R291). -/
def execRead (n : Nat) (s : State) : Host.Outcome State Fault Refusal :=
  if s.phase = .idle then
    if s.valid then .next { s.readStarted n with phase := .loop } else .refused .readBeforeInit
  else .refused .busy

end Sys2Proof.Machine
end

