-- ==== Sys2Proof/Machine/Stream.lean ====
section
/-! DEFINITION. The meanings of the three stream commands (spec/42_run_commands.md R151, R153, R155, in the steps of
spec/44_sequencer_fsm.md R215 to R217). A meaning begins where the command's pull has succeeded; a failed pull brings no
command, and the step takes `Exhausted` instead. Whether a command is selected is the sequencer's business: log 18. -/

namespace Sys2Proof.Machine

/-- `BMP f`: `BMP <- f`, `BIT <- 0`, command 0 is next (R151, R215). -/
def execBmp (f : Byte) (s : State) : Host.Outcome State Fault Refusal :=
  .next { s with bmp := f, bit := 0#4, phase := .cmd }

/-- `LIT d`: `EMIT(d)`, then the next command (R153, R216 case b). -/
def execLit (d : Byte) (s : State) : Host.Outcome State Fault Refusal :=
  andThen (s.emit d) fun t => .next t.commandDone

/-- `CPY start, len`: the operand registers are loaded and the copy begins; phase `COPY` emits its `LEN` bytes, one a
step (R155, R216 case c, R217). -/
def execCpy (start : RingIndex) (len : CopyCount) (s : State) : Host.Outcome State Fault Refusal :=
  .next
    { s with
      c0 := copyOperand0 start
      c1 := copyOperand1 start len
      start := start
      len := len
      idx := 0#5
      phase := .copy }

end Sys2Proof.Machine
end

