-- ==== Sys2Proof/Machine/Dispatch.lean ====
section
/-! DEFINITION. One arm per instruction. -/

namespace Sys2Proof.Machine

def exec (i : Instr) (s : State) : Host.Outcome State Fault Refusal :=
  match i with
  | .bmp f => Sys2Proof.Machine.execBmp f s
  | .lit d => Sys2Proof.Machine.execLit d s
  | .cpy start len => Sys2Proof.Machine.execCpy start len s
  | .init => Sys2Proof.Machine.execInit s
  | .read n => Sys2Proof.Machine.execRead n s

end Sys2Proof.Machine
end

