-- ==== Sys2Proof/Machine/Sequencer.lean ====
section
/-! DEFINITION. The step of each phase (spec/44_sequencer_fsm.md R211 to R221). -/

namespace Sys2Proof.Machine

/-- The decoder and the meaning of what it read; a code the decoder rejects is an answer that breaks the source's
contract (R59, log 8). -/
def runCode (c : Code) (s : State) : Host.Outcome State Fault Refusal :=
  match decode c with
  | .ok i => exec i s
  | .error _ => .refused .sourceContract

/-- `IDLE` with no word at the port: the host's next input, if any; otherwise the block holds its state (R272, log 10). -/
def stepIdle (s : State) : Host.Outcome State Fault Refusal :=
  match s.host with
  | [] => .next s
  | .request w :: rest => .next { s with port := some w, host := rest }
  | .attach src :: rest => .next { s with source := src, host := rest }

/-- `LOOP` (R213). -/
def stepLoop (s : State) : Host.Outcome State Fault Refusal :=
  if s.roomLeft then .next { s with phase := .drain } else .next { s with phase := .ret }

/-- `DRAIN` (R214): deliver a byte; else, drained, start a run; else the stop test. The three cases are tested in this
order, as the rule says (log 13 on `RD` > `FILL`). -/
def stepDrain (s : State) : Host.Outcome State Fault Refusal :=
  if s.staged && s.roomLeft then s.deliver
  else if s.drained then .next { s.runStarted with phase := .bmpf }
  else .next { s with phase := .check }

/-- `BMPF`: issue the bitmap's pull (R215, R221). -/
def stepBmpf (s : State) : Host.Outcome State Fault Refusal := .next (s.pullIssued .xBmp)

/-- `CMD`: the run is complete, or issue the operand pull of command `BIT` (R216, R221). -/
def stepCmd (s : State) : Host.Outcome State Fault Refusal :=
  if s.bit.toNat = Config.cmdsPerRun then .next s.runCompleted
  else if s.bit.toNat < Config.cmdsPerRun then
    if s.literalNext then .next (s.pullIssued .xLit) else .next (s.pullIssued .xCpy)
  else .fault .bitIndex

/-- `WAIT`: nothing happens until the source answers (R61, R221). A failed pull raises `Exhausted` (R250); the bytes of a
successful one are the command's. -/
def stepWait (p : PullPoint) (s : State) : Host.Outcome State Fault Refusal :=
  match s.source.pull p.count with
  | none => .refused .pullUnanswered
  | some (.fail, src) => .next (s.answered .fail src).exhausted
  | some (.ok bytes, src) => runCode (.stream p bytes) (s.answered (.ok bytes) src)

/-- `COPY`: emit one byte, the ring read before the write; after `LEN` bytes the next command (R217). -/
def stepCopy (s : State) : Host.Outcome State Fault Refusal :=
  if s.idx < s.len then andThen (s.emit s.copySource) fun t => .next { t with idx := t.idx + 1#5 }
  else if s.idx = s.len then .next s.commandDone
  else .fault .copyIndex

/-- `CHECK` (R218). -/
def stepCheck (s : State) : Host.Outcome State Fault Refusal :=
  if s.nothingProduced then .next { s with phase := .ret } else .next { s with phase := .loop }

/-- `RET` (R219). -/
def stepRet (s : State) : Host.Outcome State Fault Refusal := .next s.readReturned

/-- The step of the phase the sequencer is in, no command word standing at the port. -/
def stepPhase (s : State) : Host.Outcome State Fault Refusal :=
  match s.phase with
  | .idle => stepIdle s
  | .loop => stepLoop s
  | .drain => stepDrain s
  | .bmpf => stepBmpf s
  | .cmd => stepCmd s
  | .copy => stepCopy s
  | .check => stepCheck s
  | .ret => stepRet s
  | .wait p => stepWait p s

/-- The command word at the port is taken: the decoder reads it and its meaning runs, which refuses it outside `IDLE`
(R72, R211, R212). -/
def takeRequest (w : HostWord) (s : State) : Host.Outcome State Fault Refusal :=
  runCode (.host w) { s with port := none }

/-- The state in which the next step fetches and runs exactly the code `c` (log 12). A command word is placed at the port
of an idle core, which has been initialised if the word is a `READ`. Stream bytes are placed before all else the source
delivers, with their pull outstanding and, for a command, with its bitmap bit selecting it. -/
def State.placed (s : State) : Code → State
  | .host w =>
    { s with phase := .idle, port := some w, valid := s.valid || decide (w.op ≠ 0#1) }
  | .stream p bytes =>
    let base : State := { s with phase := .wait p, port := none, valid := true, source := s.source.supply bytes }
    match p with
    | .xBmp => base
    | .xLit => { base with bit := 0#4, bmp := s.bmp ||| 1#8 }
    | .xCpy => { base with bit := 0#4, bmp := s.bmp &&& 0xFE#8 }

end Sys2Proof.Machine
end

