-- ==== Sys2Proof/Machine/Step.lean ====
section
/-! DEFINITION. One step of the machine: the command word standing at the host's port is taken, or the sequencer steps
(spec/44_sequencer_fsm.md R211 to R221). -/

namespace Sys2Proof.Machine

/-- One step (R210 to R221). -/
def step (s : State) : Host.Outcome State Fault Refusal :=
  match s.port with
  | some w => takeRequest w s
  | none => stepPhase s

/-- `s` with the instruction of a table word where the next step fetches it; a word that is no row's is not placed (log
11, log 12). -/
def State.withFetchWord (s : State) (nbits w : Nat) : State :=
  match tableCode nbits w with
  | some c => s.placed c
  | none => s

end Sys2Proof.Machine
end

