-- ==== Sys2Proof/Machine/BigStep.lean ====
section
/-! DEFINITION. The big-step operations of the algorithm, the normative rules of spec/41_emit_and_copy.md to
spec/43_incremental_read.md, over the same state: `BLOCKCOPY` (R133), `RUN` (R150), `READ` (R180), and the decoded string
`DEC(S)` (R193). The sequencer has to agree with them (R223). -/

namespace Sys2Proof.Machine

/-- Iterations i, i + 1, …, k of them, of `BLOCKCOPY(start, ·)`: read first, then emit (R133). -/
def blockCopyFrom (start : RingIndex) : Nat → Nat → State → Host.Outcome State Fault Refusal
  | _, 0, s => .next s
  | i, k + 1, s => andThen (s.emit (s.ringRead (copyIndexAt start i))) (blockCopyFrom start (i + 1) k)

/-- `BLOCKCOPY(start, len)` (R133). -/
def blockCopy (start : RingIndex) (len : Nat) (s : State) : Host.Outcome State Fault Refusal :=
  blockCopyFrom start 0 len s

/-- `SrcPull(k)` as one operation: issued, answered; nothing when it is never answered (R13, R58). -/
def State.pullNow (s : State) (k : Nat) : Option (Answer × State) :=
  match s.source.pull k with
  | none => none
  | some (a, src) => some (a, (s.record (.pull k)).answered a src)

/-- The last `k` commands of a run, from command `BIT` on (R150 step 3). A failed pull ends the run where it stands
(R252). `START` is assembled by the formula `((C1 & 0xF0) << 4) | C0` and `LEN` by `(C1 & 0x0F) + 3`, in numbers. -/
def runCommands : Nat → State → Host.Outcome State Fault Refusal
  | 0, s => .next s
  | k + 1, s =>
    if s.literalNext then
      match s.pullNow 1 with
      | none => .refused .pullUnanswered
      | some (.fail, t) => .next t
      | some (.ok [b], t) =>
        andThen (t.emit b) fun u => runCommands k { u with bit := u.bit + 1#4 }
      | some (.ok _, _) => .refused .sourceContract
    else
      match s.pullNow 2 with
      | none => .refused .pullUnanswered
      | some (.fail, t) => .next t
      | some (.ok [b0, b1], t) =>
        andThen
          (blockCopy (BitVec.ofNat 12 (((b1.toNat &&& 0xF0) <<< 4) ||| b0.toNat)) ((b1.toNat &&& 0x0F) + Config.threshold) t)
          fun u => runCommands k { u with bit := u.bit + 1#4 }
      | some (.ok _, _) => .refused .sourceContract

/-- `RUN()` (R150): it returns no value, its invoker tells what happened from `FILL`. -/
def runRun (s : State) : Host.Outcome State Fault Refusal :=
  match s.runStarted.pullNow 1 with
  | none => .refused .pullUnanswered
  | some (.fail, t) => .next t
  | some (.ok [f], t) => runCommands Config.cmdsPerRun { t with bmp := f, bit := 0#4 }
  | some (.ok _, _) => .refused .sourceContract

/-- `DestWrite(FILLED + j, STAGE[RD + j])` for j = 0, …, k - 1, in that order (R180 step 1, R65). -/
def State.drainWrites (s : State) : Nat → State
  | 0 => s
  | k + 1 => (s.drainWrites k).destWrite (s.filled + k) (s.stageRead (s.rd.toNat + k))

/-- Step 1, the drain: k = min(FILL - RD, N - FILLED) bytes (R183). -/
def State.drain (s : State) : State :=
  let k := min (s.fill.toNat - s.rd.toNat) (s.n - s.filled)
  { s.drainWrites k with rd := s.rd + BitVec.ofNat 8 k, filled := s.filled + k }

/-- Step 2, the refill: when drained, one `RUN`, then `RD <- 0` (R184). -/
def refill (s : State) : Host.Outcome State Fault Refusal :=
  if s.drained then andThen (runRun s) fun t => .next { t with rd := 0#8 } else .next s

/-- The loop of `READ`, at most `fuel` iterations (R180 steps 1 to 3). N + 1 iterations are enough (R191), so what is
answered when none is left is what the loop's exit answers. -/
def readLoop : Nat → State → Host.Outcome State Fault Refusal
  | 0, s => .next s
  | fuel + 1, s =>
    if s.roomLeft then
      andThen (refill s.drain) fun t => if t.nothingProduced then .next t else readLoop fuel t
    else .next s

/-- `READ(N)` on an initialised, idle block (R180). -/
def bigRead (n : Nat) (s : State) : Host.Outcome State Fault Refusal :=
  andThen (readLoop (n + 1) (s.readStarted n)) fun t => .next t.readReturned

/-- The staged bytes, oldest first (R23). -/
def State.stagedBytes (s : State) : List Byte := (List.range s.fill.toNat).map s.stageRead

/-- The bytes of the destination, indices 0 to `actual_length` - 1 (R54, R66). -/
def State.deliveredBytes (s : State) : List Byte := (List.range s.filled).map fun j => (s.destRead j).getD 0#8

/-- The output of `RUN` after `RUN`, until one ends with `FILL` = 0; at most `fuel` runs (R193). -/
def decodedFrom : Nat → State → List Byte
  | 0, _ => []
  | fuel + 1, s =>
    match runRun s with
    | .next t => if t.nothingProduced then [] else t.stagedBytes ++ decodedFrom fuel t
    | .fault _ => []
    | .refused _ => []

/-- The state after `INIT`, with the source `STREAM(S)` attached (R62, R120). -/
def sessionStart (bytes : List Byte) (spend : Bool) : State :=
  { State.reset.initialised with source := .stream bytes 0 spend }

/-- `DEC(S)` (R193). Every run that stages a byte consumes at least two, so |S| + 1 runs are enough. -/
def decString (bytes : List Byte) : List Byte := decodedFrom (bytes.length + 1) (sessionStart bytes false)

/-- A sequence of `READ`s: the bytes each delivers, and the state after the last; nothing when one does not return
(R192). -/
def readSession : List Nat → State → Option (List (List Byte) × State)
  | [], s => some ([], s)
  | n :: ns, s =>
    match bigRead n s with
    | .next t => (readSession ns t).map fun r => (t.deliveredBytes :: r.1, r.2)
    | .fault _ => none
    | .refused _ => none

end Sys2Proof.Machine
end

