-- ==== Sys2Proof/Safety.lean ====
section
/-! DEFINITION. What counts as a safe state and a safe run: the invariant of the machine, the history laws, runs
up to the next idle state, and what two descriptions of a `READ` have to agree on. -/

namespace Sys2Proof.Machine

/-- Between operations nothing is half drained: staged bytes are unread, or nothing is staged (R28). -/
def State.Settled (s : State) : Prop := s.rd < s.fill ∨ (s.fill = 0#8 ∧ s.rd = 0#8)

/-- What holds of the cursors and the transient registers in each phase (R27, R28, R30, R33, R158). The bound on `FILL`
inside a run is 18 bytes for each command done, plus the bytes of the copy in progress. -/
def State.PhaseInv (s : State) : Prop :=
  match s.phase with
  | .idle => s.Settled
  | .loop => s.Settled
  | .check => s.Settled
  | .ret => s.Settled ∧ (s.filled = s.n ∨ s.fill = 0#8)
  | .drain => s.rd ≤ s.fill
  | .bmpf => s.fill = 0#8
  | .wait .xBmp => s.fill = 0#8
  | .cmd => s.bit.toNat ≤ 8 ∧ s.fill.toNat ≤ 18 * s.bit.toNat
  | .wait .xLit => s.bit.toNat < 8 ∧ s.literalNext = true ∧ s.fill.toNat ≤ 18 * s.bit.toNat
  | .wait .xCpy => s.bit.toNat < 8 ∧ s.literalNext = false ∧ s.fill.toNat ≤ 18 * s.bit.toNat
  | .copy =>
    s.bit.toNat < 8 ∧ s.literalNext = false ∧ s.start = copyStart s.c0 s.c1 ∧ s.len = copyLen s.c1 ∧
      s.idx ≤ s.len ∧ s.fill.toNat ≤ 18 * s.bit.toNat + s.idx.toNat

/-- The invariant of the machine: canonical memories of the sizes of R50, the cursor bounds of R27, the destination
written exactly at the indices below `FILLED` (R65), an operation only after `INIT` (R291), and each phase's own part. -/
structure State.Inv (s : State) : Prop where
  ringWf : s.ring.wf (some Config.ringUnlisted) Config.ringSize = true
  stageWf : s.stage.wf (some Config.stageUnlisted) Config.stageCap = true
  destWf : s.dest.wf none s.n = true
  destWritten : ∀ j, (s.destRead j).isSome = true ↔ j < s.filled
  fillCap : s.fill.toNat ≤ Config.stageCap
  rdCap : s.rd.toNat ≤ Config.stageCap
  filledLe : s.filled ≤ s.n
  onlyAfterInit : s.valid = false → s.phase = .idle
  phaseInv : s.PhaseInv

/-- The ring history of R29, with t the number of bytes emitted since the last `INIT`: the cursor is t past the start
offset, the last min(t, 4096) bytes stand behind it in order, and every other index holds the filler. The ghost keeps the
newest byte first, so out[t - j] is its element j - 1. -/
def State.RingHistory (s : State) : Prop :=
  s.wpos.toNat = (4078 + s.emitted.length) % 4096 ∧
  (∀ j, 1 ≤ j → j ≤ min s.emitted.length 4096 →
    s.emitted[j - 1]? = some (s.ringRead (s.wpos - BitVec.ofNat 12 j))) ∧
  ∀ a : RingIndex, (∀ j, 1 ≤ j → j ≤ min s.emitted.length 4096 → a ≠ s.wpos - BitVec.ofNat 12 j) →
    s.ringRead a = 0x20#8

/-- The staged bytes are the last `FILL` bytes emitted (R23, R24). -/
def State.StageHistory (s : State) : Prop :=
  s.fill.toNat ≤ s.emitted.length ∧
  ∀ j, j < s.fill.toNat → s.emitted[j]? = some (s.stageRead (s.fill.toNat - 1 - j))

/-- `k` steps of the machine, stopping at the first fault or refusal. -/
def steps : Nat → State → Host.Outcome State Fault Refusal
  | 0, s => .next s
  | k + 1, s => andThen (step s) (steps k)

/-- Some number of steps, stopping when the core is idle; what is answered when the steps run out is where the machine
then stands. -/
def runToIdle : Nat → State → Host.Outcome State Fault Refusal
  | 0, s => .next s
  | k + 1, s => if s.phase = .idle then .next s else andThen (step s) (runToIdle k)

/-- The persistent state and everything the environment sees of two states agree (R223): trace, destination, returned length,
source, `RING`, `WPOS`, `STAGE`, `FILL`, `RD`. -/
def State.SameOutside (s t : State) : Prop :=
  s.trace = t.trace ∧ s.dest = t.dest ∧ s.filled = t.filled ∧ s.source = t.source ∧ s.ring = t.ring ∧ s.wpos = t.wpos ∧
    s.stage = t.stage ∧ s.fill = t.fill ∧ s.rd = t.rd ∧ s.valid = t.valid ∧ s.emitted = t.emitted

/-- The two descriptions of an operation end alike: both complete, at an idle core and with the same outside, or both stop
for the same reason (R223). -/
def EndAlike (a b : Host.Outcome State Fault Refusal) : Prop :=
  (∃ s t, a = .next s ∧ b = .next t ∧ s.phase = .idle ∧ t.phase = .idle ∧ s.SameOutside t) ∨
  (∃ r, a = .refused r ∧ b = .refused r) ∨
  ∃ f, a = .fault f ∧ b = .fault f

/-- The counts of the pulls among some events, in order (R8). -/
def pullCounts : List Event → List Nat
  | [] => []
  | .pull k :: es => k :: pullCounts es
  | .answer _ :: es => pullCounts es
  | .destWrite _ _ :: es => pullCounts es
  | .returned _ :: es => pullCounts es
  | .initDone :: es => pullCounts es

/-- The destination writes among some events, in order (R8). -/
def destWrites : List Event → List (Nat × Byte)
  | [] => []
  | .destWrite j v :: es => (j, v) :: destWrites es
  | .pull _ :: es => destWrites es
  | .answer _ :: es => destWrites es
  | .returned _ :: es => destWrites es
  | .initDone :: es => destWrites es

end Sys2Proof.Machine
end

