-- ==== Sys2Proof/Certificates/Slice0/Obligations.lean ====
section
/-! DEFINITION. The statements for the provers, from the numbered rules of spec/. -/

open Sys2Proof Sys2Proof.Machine

/-! ### Encoding -/

/-- R90 to R97: for every well-formed instruction, with every operand at every value its field admits, the decoder gives back
what the encoder was given. The bit of the host's select is the spec's decision D13. -/
def Obligations.DecodeOfEncode : Prop :=
  ∀ i : Instr, i.wellFormed = true → decode (encode i) = .ok i

/-- R98, R101: at every pull point every byte string of the length the pull asks for decodes to a well-formed instruction
whose encoding is that byte string, and a byte string of any other length is rejected by name. That nothing is illegal is the
spec's decision D17; rejecting a byte string of another length is the model's choice, log 8. -/
def Obligations.StreamDecodeIsTotalAndExact : Prop :=
  ∀ (p : PullPoint) (bytes : List Byte),
    (bytes.length = p.count →
      ∃ i, decode (.stream p bytes) = .ok i ∧ i.wellFormed = true ∧ encode i = .stream p bytes) ∧
    (bytes.length < p.count → decode (.stream p bytes) = .error .tooFewBytes) ∧
    (p.count < bytes.length → decode (.stream p bytes) = .error .tooManyBytes)

/-- R96: the two ways the rule writes the operand of a copy agree with the decoder's on all 65536 operands; the operand of a
literal is used as it is. -/
def Obligations.CopyOperandAssembly : Prop :=
  ∀ c0 c1 : Byte, ∃ start len,
    decode (.stream .xCpy [c0, c1]) = .ok (.cpy start len) ∧
    start.toNat = (((c1.toNat &&& 0xF0) <<< 4) ||| c0.toNat) ∧
    start.toNat = 256 * (c1.toNat / 16) + c0.toNat ∧
    len.toNat = (c1.toNat &&& 0x0F) + 3 ∧
    start.toNat ≤ 4095 ∧ 3 ≤ len.toNat ∧ len.toNat ≤ 18 ∧
    decode (.stream .xLit [c0]) = .ok (.lit c0)

/-- R97: the encoding direction, and its three examples. The spec derives R97 from R96. -/
def Obligations.CopyOperandEncoding : Prop :=
  (∀ (start : RingIndex) (len : CopyCount), 3 ≤ len.toNat → len.toNat ≤ 18 →
    ∃ c0 c1 : Byte, encode (.cpy start len) = .stream .xCpy [c0, c1] ∧
      c0.toNat = (start.toNat &&& 0xFF) ∧
      c1.toNat = (((start.toNat >>> 4) &&& 0xF0) ||| (len.toNat - 3))) ∧
  encode (.cpy 4078#12 3#5) = .stream .xCpy [0xEE#8, 0xF0#8] ∧
  encode (.cpy 0#12 18#5) = .stream .xCpy [0x00#8, 0x0F#8] ∧
  encode (.cpy 4095#12 18#5) = .stream .xCpy [0xFF#8, 0xFF#8]

/-- R93: the length of a complete run in stream bytes is 17 - popcount(f), between 9 and 17, whatever follows it, and the run
is complete exactly when the byte string is long enough for it. The spec derives R93 from R90 and R96. -/
def Obligations.RunLengthInStreamBytes : Prop :=
  ∀ (f : Byte) (bytes rest : List Byte) (cmds : List Instr),
    decodeRun (f :: bytes) = some (f, cmds, rest) →
      (cmds.length = 8 ↔ 17 - popcount f ≤ (f :: bytes).length) ∧
      (cmds.length = 8 → (f :: bytes).length = 17 - popcount f + rest.length) ∧
      9 ≤ 17 - popcount f ∧ 17 - popcount f ≤ 17

/-- Words written out from the formats of R91, R94, R95 and R102 decode to what they stand for. The `op` values are the
spec's decision D13. -/
def Obligations.WordsOfTheFormats : Prop :=
  decode (.stream .xBmp [0xFF#8]) = .ok (.bmp 0xFF#8) ∧
  decode (.stream .xLit [0x41#8]) = .ok (.lit 0x41#8) ∧
  decode (.stream .xCpy [0xEE#8, 0xF0#8]) = .ok (.cpy 4078#12 3#5) ∧
  decode (.stream .xCpy [0x34#8, 0x12#8]) = .ok (.cpy 0x134#12 5#5) ∧
  decode (.host { op := 0#1, n := 0 }) = .ok .init ∧
  decode (.host { op := 1#1, n := 8 }) = .ok (.read 8)

/-! ### The step runs the decoded instruction -/

/-- A command word at the port: the step is the meaning of the instruction it decodes to, in the state with the port empty.
That the word stands at a port and is taken by a step is the model's choice, log 9. -/
def Obligations.StepRunsTheHostCommand : Prop :=
  ∀ (s : State) (w : HostWord) (i : Instr),
    s.port = some w → decode (.host w) = .ok i →
    step s = exec i { s with port := none }

/-- A pull answered with bytes that decode to an instruction: the step is the meaning of that instruction, in the state in
which the source has given its bytes and the answer stands in the trace. The answer as a step of its own and as an event is
the model's choice within R221, log 1 and log 14. -/
def Obligations.StepRunsThePulledCommand : Prop :=
  ∀ (s : State) (p : PullPoint) (bytes : List Byte) (src : Source) (i : Instr),
    s.port = none → s.phase = .wait p → s.source.pull p.count = some (.ok bytes, src) →
    decode (.stream p bytes) = .ok i →
    step s = exec i { s with source := src, trace := s.trace ++ [.answer (.ok bytes)] }

/-! ### The host operations -/

/-- R120: `INIT` on an idle core answers a next state: the ring all 0x20, `WPOS` 4078, nothing staged, `VALID` 1, none of
which depends on the state before; `STAGE`, the transient registers, the ports and the phase are as before; no pull and no
destination write is added to the trace, only the completion. The bytes emitted since the last `INIT`, the ghost of R29,
start again as the empty list. That ghost and the completion as an event of the trace are the model's choice, log 14. -/
def Obligations.InitEffect : Prop :=
  ∀ s : State, s.phase = .idle →
    ∃ t, exec .init s = .next t ∧
      (∀ a : RingIndex, t.ringRead a = 0x20#8) ∧ t.wpos = 4078#12 ∧ t.fill = 0#8 ∧ t.rd = 0#8 ∧ t.valid = true ∧
      t.emitted = [] ∧ t.trace = s.trace ++ [.initDone] ∧
      { t with
        ring := s.ring, wpos := s.wpos, fill := s.fill, rd := s.rd, valid := s.valid, emitted := s.emitted,
        trace := s.trace } = s

/-- R212: in `IDLE` with `VALID` = 1, `READ(n)` answers the next state with `N` = n, `FILLED` = 0 and `PHASE` = `LOOP` (and a
new destination, R54), everything else as before; with `VALID` = 0 it has no step; in any other phase a host request has no
step. The refusals are the spec's decisions D7 and D9; the new destination is log 15. -/
def Obligations.ReadRequest : Prop :=
  ∀ (s : State) (n : Nat),
    (s.phase = .idle → s.valid = true →
      exec (.read n) s = .next { s with n := n, filled := 0, dest := [], phase := .loop }) ∧
    (s.phase = .idle → s.valid = false → exec (.read n) s = .refused .readBeforeInit) ∧
    (s.phase ≠ .idle → exec (.read n) s = .refused .busy ∧ exec .init s = .refused .busy)

/-- R124 and R72 at the port: a command word standing at the port while the core is not idle gives the machine no step. The
refusal is the spec's decision D9; where the word stands is log 9. -/
def Obligations.RequestOutsideIdleHasNoStep : Prop :=
  ∀ (s : State) (w : HostWord), s.port = some w → s.phase ≠ .idle → step s = .refused .busy

/-- R181: from an idle initialised core, `READ(0)` returns 0 after the request and two steps: no pull, no destination write,
and no change of the block but `N` and `FILLED`, in every state, whether bytes are staged or not. The spec derives R181 from
R180. The two steps are phases of the spec's decision D15, log 1. -/
def Obligations.ReadZeroDoesNothing : Prop :=
  ∀ s : State, s.phase = .idle → s.valid = true → s.port = none →
    andThen (exec (.read 0) s) (steps 2) =
      .next { s with n := 0, filled := 0, dest := [], trace := s.trace ++ [.returned 0] }

/-- R189: with nothing staged and a source whose next answer is `fail`, `READ(n)` with n > 0 issues exactly one pull,
`SrcPull(1)`, and returns 0 without any destination write, six steps after the request; the block is left as it was. That
exhaustion is not remembered is the spec's decision D6. The six steps are no count of R189: they are the phases of the spec's
decision D15 with the optional split of a pull (R221, log 1), and the answer as an event is the model's choice, log 14. -/
def Obligations.ReadAfterExhaustion : Prop :=
  ∀ (s : State) (n : Nat) (src : Source),
    s.phase = .idle → s.valid = true → s.port = none → s.fill = 0#8 → s.rd = 0#8 → 0 < n →
    s.source.pull 1 = some (.fail, src) →
    andThen (exec (.read n) s) (steps 6) =
      .next
        { s with
          n := n, filled := 0, dest := [], source := src,
          trace := s.trace ++ [.pull 1, .answer .fail, .returned 0] }

/-! ### The stream commands -/

/-- R151 (success), R215: `BMP f` answers the next state with `BMP` = f, `BIT` = 0 and `PHASE` = `CMD`, everything else as
before. The phase is the spec's decision D15, log 1. -/
def Obligations.BitmapEffect : Prop :=
  ∀ (f : Byte) (s : State), exec (.bmp f) s = .next { s with bmp := f, bit := 0#4, phase := .cmd }

/-- R153, R130, R131: `LIT d` with at most 143 bytes staged answers a next state: d stands in `STAGE` at the old `FILL` and
in `RING` at the old `WPOS`, both cursors have advanced, `BIT` has advanced and the next command is dispatched; every other
byte of both memories and everything else is as before. With 144 or more it is the model's own fault `stageIndex` (log 13).
The phase and `BIT` are the spec's decision D15, log 1. -/
def Obligations.LiteralEffect : Prop :=
  ∀ (d : Byte) (s : State),
    (s.fill.toNat ≤ 143 →
      ∃ t, exec (.lit d) s = .next t ∧
        t.stageRead s.fill.toNat = d ∧ t.ringRead s.wpos = d ∧
        t.fill.toNat = s.fill.toNat + 1 ∧ t.wpos.toNat = (s.wpos.toNat + 1) % 4096 ∧ t.bit = s.bit + 1#4 ∧ t.phase = .cmd ∧
        t.emitted = d :: s.emitted ∧
        (∀ k, k ≠ s.fill.toNat → t.stageRead k = s.stageRead k) ∧
        (∀ a : RingIndex, a ≠ s.wpos → t.ringRead a = s.ringRead a) ∧
        { t with
          ring := s.ring, stage := s.stage, fill := s.fill, wpos := s.wpos, bit := s.bit, phase := s.phase,
          emitted := s.emitted } = s) ∧
    (143 < s.fill.toNat → exec (.lit d) s = .fault .stageIndex)

/-- R216 case c, R33: `CPY start, len` answers the next state with `START` and `LEN` loaded, `IDX` = 0, `PHASE` = `COPY`, and
`C0`, `C1` the two operand bytes that assemble to them; everything else, both memories included, is as before. That `C0` and
`C1` are recovered from the decoded operand is log 17. The phase and the registers are the spec's decision D15, log 1. -/
def Obligations.CopyStarts : Prop :=
  ∀ (start : RingIndex) (len : CopyCount) (s : State), (Instr.cpy start len).wellFormed = true →
    ∃ c0 c1 : Byte,
      exec (.cpy start len) s =
        .next { s with c0 := c0, c1 := c1, start := start, len := len, idx := 0#5, phase := .copy } ∧
      start = c1.extractLsb' 4 4 ++ c0 ∧ len.toNat = (c1.extractLsb' 0 4).toNat + 3

/-- R155, R139, R217: with room in `STAGE`, `CPY start, len` and the `len` + 1 steps of phase `COPY` after it have the whole
effect of `BLOCKCOPY(start, len)`, and then the next command is dispatched: nothing else can happen in between. That nothing
comes in between is the spec's own inference in R139. One byte a step is the spec's decision D15, log 1. -/
def Obligations.CopyStepsAreBlockCopy : Prop :=
  ∀ (start : RingIndex) (len : CopyCount) (s : State), (Instr.cpy start len).wellFormed = true →
    s.port = none → s.fill.toNat + len.toNat ≤ 144 →
    ∃ t u v, exec (.cpy start len) s = .next t ∧ steps (len.toNat + 1) t = .next u ∧
      blockCopy start len.toNat s = .next v ∧
      u = { v with
            c0 := t.c0, c1 := t.c1, start := start, len := len, idx := len, bit := s.bit + 1#4, phase := .cmd }

/-! ### The internal primitives -/

/-- R130: `EMIT(b)` writes `STAGE[FILL]` and `RING[WPOS]` with the values the cursors had before it and advances both, `WPOS`
modulo 4096; every other byte and everything else is as before. -/
def Obligations.EmitDualWrite : Prop :=
  ∀ (s : State) (b : Byte), s.fill.toNat ≤ 143 →
    ∃ t, s.emit b = .next t ∧
      t.stageRead s.fill.toNat = b ∧ t.ringRead s.wpos = b ∧
      t.fill.toNat = s.fill.toNat + 1 ∧ t.wpos.toNat = (s.wpos.toNat + 1) % 4096 ∧
      (∀ k, k ≠ s.fill.toNat → t.stageRead k = s.stageRead k) ∧
      (∀ a : RingIndex, a ≠ s.wpos → t.ringRead a = s.ringRead a) ∧
      t.emitted = b :: s.emitted ∧
      { t with ring := s.ring, stage := s.stage, fill := s.fill, wpos := s.wpos, emitted := s.emitted } = s

/-- R133: `BLOCKCOPY(start, len)` with room in `STAGE` answers a next state; with o its output, o[i] is what the ring holds
at (start + i) mod 4096 when the first i iterations are done, `STAGE` holds o from the old `FILL` on, `RING` holds o from the
old `WPOS` on (modulo 4096), the cursors have advanced by `len`, and every other byte and everything else is as before. -/
def Obligations.BlockCopyWrites : Prop :=
  ∀ (start : RingIndex) (len : Nat) (s : State), s.fill.toNat + len ≤ 144 →
    ∃ (v : State) (o : List Byte), blockCopy start len s = .next v ∧ o.length = len ∧ v.emitted = o.reverse ++ s.emitted ∧
      (∀ i, i < len →
        ∃ u, blockCopy start i s = .next u ∧ o[i]? = some (u.ringRead (BitVec.ofNat 12 ((start.toNat + i) % 4096)))) ∧
      (∀ i, i < len → o[i]? = some (v.stageRead (s.fill.toNat + i)) ∧
        o[i]? = some (v.ringRead (s.wpos + BitVec.ofNat 12 i))) ∧
      v.fill.toNat = s.fill.toNat + len ∧ v.wpos.toNat = (s.wpos.toNat + len) % 4096 ∧
      (∀ k, k < s.fill.toNat ∨ s.fill.toNat + len ≤ k → v.stageRead k = s.stageRead k) ∧
      (∀ a : RingIndex, (∀ i, i < len → a ≠ s.wpos + BitVec.ofNat 12 i) → v.ringRead a = s.ringRead a) ∧
      { v with ring := s.ring, stage := s.stage, fill := s.fill, wpos := s.wpos, emitted := s.emitted } = s

/-- R135: with W the cursor on entry and d = (W - start) mod 4096, the byte emitted at iteration i is the ring's old byte at
start + i when d = 0 or i < d, and the byte emitted at iteration i - d otherwise; when d = 0 the command leaves `RING`
unchanged. The spec derives R135 from R130 and R133. -/
def Obligations.OverlappingCopyLaw : Prop :=
  ∀ (start : RingIndex) (len : Nat) (s v : State) (o : List Byte),
    s.fill.toNat + len ≤ 144 → blockCopy start len s = .next v → v.emitted = o.reverse ++ s.emitted → o.length = len →
    ((s.wpos - start).toNat = 0 → ∀ a : RingIndex, v.ringRead a = s.ringRead a) ∧
    ∀ i, i < len →
      (((s.wpos - start).toNat = 0 ∨ i < (s.wpos - start).toNat) →
        o[i]? = some (s.ringRead (start + BitVec.ofNat 12 i))) ∧
      (1 ≤ (s.wpos - start).toNat → (s.wpos - start).toNat ≤ i → o[i]? = o[i - (s.wpos - start).toNat]?)

/-- R62: the reference source `STREAM(S)` at position p: a pull of k bytes brings S[p], …, S[p+k-1] and moves to p + k when
that many are left, and otherwise fails, leaving p or, in the variant, moving to |S|. The reference source is the spec's
decision D5; holding it as data is log 6. -/
def Obligations.StreamSourcePull : Prop :=
  ∀ (bytes : List Byte) (p k : Nat) (spend : Bool),
    (p + k ≤ bytes.length →
      ∃ got, (Source.stream bytes p spend).pull k = some (.ok got, .stream bytes (p + k) spend) ∧ got.length = k ∧
        ∀ i, i < k → got[i]? = bytes[p + i]?) ∧
    (bytes.length < p + k →
      (Source.stream bytes p spend).pull k = some (.fail, .stream bytes (if spend then bytes.length else p) spend))

/-! ### The sequencer, phase by phase -/

/-- R213, R218, R219: the tests at the top of the `READ` loop and after a run, and the return. The phases are the spec's
decision D15, log 1. -/
def Obligations.LoopCheckAndReturnSteps : Prop :=
  ∀ s : State, s.port = none →
    (s.phase = .loop → s.filled < s.n → step s = .next { s with phase := .drain }) ∧
    (s.phase = .loop → ¬ s.filled < s.n → step s = .next { s with phase := .ret }) ∧
    (s.phase = .check → s.fill.toNat = 0 → step s = .next { s with phase := .ret }) ∧
    (s.phase = .check → s.fill.toNat ≠ 0 → step s = .next { s with phase := .loop }) ∧
    (s.phase = .ret → step s = .next { s with phase := .idle, trace := s.trace ++ [.returned s.filled] })

/-- R214: the three cases of phase `DRAIN`. Case (a) delivers `STAGE[RD]` at destination index `FILLED`; every other
destination cell is as before. The phases are the spec's decision D15, log 1. -/
def Obligations.DrainStep : Prop :=
  ∀ s : State, s.port = none → s.phase = .drain → s.rd.toNat ≤ s.fill.toNat → s.fill.toNat ≤ 144 →
    (s.rd.toNat < s.fill.toNat → s.filled < s.n →
      ∃ t, step s = .next t ∧ t.destRead s.filled = some (s.stageRead s.rd.toNat) ∧
        t.trace = s.trace ++ [.destWrite s.filled (s.stageRead s.rd.toNat)] ∧
        t.rd.toNat = s.rd.toNat + 1 ∧ t.filled = s.filled + 1 ∧ t.phase = .drain ∧
        (∀ j, j ≠ s.filled → t.destRead j = s.destRead j) ∧
        { t with dest := s.dest, trace := s.trace, rd := s.rd, filled := s.filled } = s) ∧
    (s.rd.toNat = s.fill.toNat → step s = .next { s with fill := 0#8, phase := .bmpf }) ∧
    (s.rd.toNat < s.fill.toNat → s.filled = s.n → step s = .next { s with phase := .check })

/-- R215: from phase `BMPF`, the pull `SrcPull(1)` and its answer: on `fail` the run is aborted at `X_BMP`, `RD <- 0` and
`PHASE <- CHECK`; on `ok(b0)`, `BMP <- b0`, `BIT <- 0` and `PHASE <- CMD`. Everything else is as before. The phases are the
spec's decision D15; the pull is two steps as R221 permits, log 1, and its answer an event, log 14. -/
def Obligations.BitmapFetchSteps : Prop :=
  ∀ (s : State) (src : Source), s.port = none → s.phase = .bmpf →
    (s.source.pull 1 = some (.fail, src) →
      steps 2 s =
        .next { s with rd := 0#8, phase := .check, source := src, trace := s.trace ++ [.pull 1, .answer .fail] }) ∧
    ∀ b0, s.source.pull 1 = some (.ok [b0], src) →
      steps 2 s =
        .next
          { s with
            bmp := b0, bit := 0#4, phase := .cmd, source := src, trace := s.trace ++ [.pull 1, .answer (.ok [b0])] }

/-- R216: phase `CMD`: with `BIT` = 8 the run is complete; otherwise bit `BIT` of the bitmap decides between one pull of one
byte, a literal, and one pull of two bytes, a copy; a failed pull aborts the run with `RD <- 0` and `PHASE <- CHECK` and
nothing emitted. The phases are the spec's decision D15; the pull is two steps as R221 permits, log 1, and its answer an
event, log 14. -/
def Obligations.CommandDispatchSteps : Prop :=
  ∀ (s : State) (src : Source), s.port = none → s.phase = .cmd →
    (s.bit = 8#4 → step s = .next { s with rd := 0#8, phase := .check }) ∧
    (s.bit < 8#4 → s.bmp.getLsbD s.bit.toNat = true →
      (s.source.pull 1 = some (.fail, src) →
        steps 2 s =
          .next { s with rd := 0#8, phase := .check, source := src, trace := s.trace ++ [.pull 1, .answer .fail] }) ∧
      ∀ b0, s.fill.toNat ≤ 143 → s.source.pull 1 = some (.ok [b0], src) →
        ∃ u, s.emit b0 = .next u ∧
          steps 2 s =
            .next
              { u with
                bit := s.bit + 1#4, phase := .cmd, source := src, trace := s.trace ++ [.pull 1, .answer (.ok [b0])] }) ∧
    (s.bit < 8#4 → s.bmp.getLsbD s.bit.toNat = false →
      (s.source.pull 2 = some (.fail, src) →
        steps 2 s =
          .next { s with rd := 0#8, phase := .check, source := src, trace := s.trace ++ [.pull 2, .answer .fail] }) ∧
      ∀ b0 b1, s.source.pull 2 = some (.ok [b0, b1], src) →
        steps 2 s =
          .next
            { s with
              c0 := b0, c1 := b1, start := b1.extractLsb' 4 4 ++ b0, len := (b1.extractLsb' 0 4).setWidth 5 + 3#5,
              idx := 0#5, phase := .copy, source := src, trace := s.trace ++ [.pull 2, .answer (.ok [b0, b1])] })

/-- R217: phase `COPY`: while `IDX` < `LEN`, emit the byte `RING[(START + IDX) mod 4096]` had at the start of the step; at
`IDX` = `LEN`, the next command. The byte is emitted with at most 143 bytes staged, which holds after `INIT` by R131; with
144 the model has its own fault, log 13. The phases are the spec's decision D15, log 1. -/
def Obligations.CopyStep : Prop :=
  ∀ s : State, s.port = none → s.phase = .copy →
    (s.idx.toNat < s.len.toNat → s.fill.toNat ≤ 143 →
      ∃ u, s.emit (s.ringRead (BitVec.ofNat 12 ((s.start.toNat + s.idx.toNat) % 4096))) = .next u ∧
        step s = .next { u with idx := s.idx + 1#5, phase := .copy }) ∧
    (s.idx = s.len → step s = .next { s with bit := s.bit + 1#4, phase := .cmd })

/-- R252, R222: `Exhausted` at any of the three pull points: the step leaves `RD` = 0 and `PHASE` = `CHECK` and keeps every
write already made; the only other changes are the source's own and the answer in the trace. Nothing is saved. That all three
points do the same is the spec's own inference in R222. -/
def Obligations.ExhaustedEntry : Prop :=
  ∀ (s : State) (p : PullPoint) (src : Source),
    s.port = none → s.phase = .wait p → s.source.pull p.count = some (.fail, src) →
    step s = .next { s with rd := 0#8, phase := .check, source := src, trace := s.trace ++ [.answer .fail] }

/-- R61, R261: a pull that is never answered leaves the machine without a step; it is no fault. The hang is the spec's
decision D22; showing it as a refusal is log 7. -/
def Obligations.UnansweredPullHangs : Prop :=
  ∀ (s : State) (p : PullPoint),
    s.port = none → s.phase = .wait p → s.source.pull p.count = none → step s = .refused .pullUnanswered

/-- R272: an idle block whose host does nothing holds its state for any number of steps. That idle time is a step that
changes nothing is log 10. -/
def Obligations.IdleHoldsItsState : Prop :=
  ∀ (s : State) (k : Nat), s.port = none → s.phase = .idle → s.host = [] → steps k s = .next s

/-- R292, R295, R63: an idle core with nothing at the port takes the host's next input: a command word is placed at the port,
or another source is attached; nothing else changes. The script of inputs is the model's choice, log 9. -/
def Obligations.IdleTakesTheHostsInput : Prop :=
  ∀ (s : State) (rest : List HostInput), s.port = none → s.phase = .idle →
    (∀ w, s.host = .request w :: rest → step s = .next { s with port := some w, host := rest }) ∧
    ∀ src, s.host = .attach src :: rest → step s = .next { s with source := src, host := rest }

/-- R221: the request half of each pull records `SrcPull(k)` as issued and sets `PHASE` to `WAIT`, remembering the phase to
resume; nothing else changes. The split is the spec's decision D15, log 1. -/
def Obligations.PullRequestSteps : Prop :=
  ∀ s : State, s.port = none →
    (s.phase = .bmpf → step s = .next { s with phase := .wait .xBmp, trace := s.trace ++ [.pull 1] }) ∧
    (s.phase = .cmd → s.bit < 8#4 → s.bmp.getLsbD s.bit.toNat = true →
      step s = .next { s with phase := .wait .xLit, trace := s.trace ++ [.pull 1] }) ∧
    (s.phase = .cmd → s.bit < 8#4 → s.bmp.getLsbD s.bit.toNat = false →
      step s = .next { s with phase := .wait .xCpy, trace := s.trace ++ [.pull 2] })

/-! ### Reset and invariants -/

/-- R210, R26: after power-on `PHASE` = `IDLE` and `VALID` = 0. Both are decisions of the spec, D7 and D15. -/
def Obligations.PowerOnState : Prop :=
  State.reset.phase = .idle ∧ State.reset.valid = false

/-- R26, R291: a step changes `VALID` only by completing an `INIT`, which sets it; it is never cleared. The ghost is the
spec's decision D7. -/
def Obligations.ValidIsSetByInitOnly : Prop :=
  ∀ s t : State, step s = .next t →
    (t.valid = true ↔ s.valid = true ∨ (s.phase = .idle ∧ ∃ w, s.port = some w ∧ w.op = 0#1))

/-- The invariant holds of the machine after power-on (with the reset values log 3 names). -/
def Obligations.PowerOnInvariant : Prop := State.reset.Inv

/-- R27, R28, R30, R65: every step keeps the invariant. The parts about each phase are the model's own, read from the phases
of spec/44_sequencer_fsm.md, and the canonical form of a memory is the model's. -/
def Obligations.StepKeepsInvariant : Prop := ∀ s t : State, s.Inv → step s = .next t → t.Inv

/-- R264, R131, R263: from a state that meets the invariant no step is a fault, whatever the environment does. The spec
decides in R264 that the block has no fault; the three faults are log 13. -/
def Obligations.NoStepFaults : Prop := ∀ (s : State) (f : Fault), s.Inv → step s ≠ .fault f

/-- R220: from a state that meets the invariant the machine has a next state, unless a pull is not answered, its answer
breaks the source's contract, a `READ` comes before `INIT` or a request comes while the core is not idle; and which of these
it is, is told by the state alone. Determinism is the spec's own inference in R220; two of the four stops are log 7 and log
8. -/
def Obligations.StopsOnlyForTheEnvironment : Prop :=
  ∀ s : State, s.Inv →
    (∃ t, step s = .next t) ∨
    (step s = .refused .busy ∧ s.port ≠ none ∧ s.phase ≠ .idle) ∨
    (step s = .refused .readBeforeInit ∧ s.phase = .idle ∧ s.valid = false ∧ ∃ w, s.port = some w ∧ w.op ≠ 0#1) ∨
    ∃ p, s.port = none ∧ s.phase = .wait p ∧
      ((step s = .refused .pullUnanswered ∧ s.source.pull p.count = none) ∨
        (step s = .refused .sourceContract ∧
          ∃ bytes src, s.source.pull p.count = some (.ok bytes, src) ∧ bytes.length ≠ p.count))

/-- R29: the ring history. It holds right after `INIT` in any state, and every step of an initialised machine keeps it, from
every state in which it holds. The spec derives R29 from R120 and R130; the bytes emitted are a ghost, log 14. -/
def Obligations.RingHistoryLaw : Prop :=
  (∀ s t : State, exec .init s = .next t → t.emitted = [] ∧ t.RingHistory) ∧
  ∀ s t : State, s.RingHistory → step s = .next t → t.RingHistory

/-- R23, R24: the staged bytes are the last `FILL` bytes emitted; every step keeps this. The bytes emitted are a ghost, log
14; the first clause rests on the reset values of log 3. -/
def Obligations.StagedBytesAreTheLatest : Prop :=
  State.reset.StageHistory ∧ ∀ s t : State, s.StageHistory → step s = .next t → t.StageHistory

/-- R22, R41, R51, R52: only `INIT`, a literal and a step of a copy write `RING`, `WPOS` or `STAGE`; every other step leaves
all three as they are. -/
def Obligations.OnlyInitAndEmitWriteTheRing : Prop :=
  ∀ s t : State, step s = .next t →
    (∀ w, s.port = some w → w.op ≠ 0#1) →
    (s.port = none → s.phase ≠ .wait .xLit ∧ (s.phase = .copy → s.idx = s.len)) →
    t.ring = s.ring ∧ t.wpos = s.wpos ∧ t.stage = s.stage ∧ t.emitted = s.emitted

/-- R53, R59, R152, R299: a step draws from the source only by answering the one outstanding pull, and then by exactly that
pull; no other step of an operation touches the source. -/
def Obligations.SourceIsReadOnlyByThePull : Prop :=
  ∀ s t : State, step s = .next t → s.phase ≠ .idle →
    t.source = s.source ∨ ∃ p a, s.phase = .wait p ∧ s.source.pull p.count = some (a, t.source)

/-- R61: a pull is outstanding exactly when the machine waits, and then it is the last event: no event comes between a pull
and its answer. Every step keeps this. Pull and answer as two events is the model's choice within R221, log 14. -/
def Obligations.OnePullOutstanding : Prop :=
  ∀ s t : State, step s = .next t →
    (∀ k, s.trace.getLast? = some (.pull k) ↔ ∃ p, s.phase = .wait p ∧ p.count = k) →
    ∀ k, t.trace.getLast? = some (.pull k) ↔ ∃ p, t.phase = .wait p ∧ p.count = k

/-- R64, R54: what a step does to the destination. Outside phase `DRAIN` it adds no destination write to the trace and leaves
every cell as it was, but for the step that takes a `READ` at the port, which starts a new destination, empty. In phase
`DRAIN` either neither the destination nor the trace changes, or the one event added is the write of `STAGE[RD]` at index
`FILLED`, that cell then holds that byte, and every other cell is as it was. Holding the destination as a memory that a
`READ` starts empty is log 15, and the trace is log 14. -/
def Obligations.DestinationIsWrittenByTheDrain : Prop :=
  ∀ s t : State, step s = .next t →
    (s.phase ≠ .drain →
      (∃ es, t.trace = s.trace ++ es ∧ destWrites es = []) ∧
      ((∀ w, s.port = some w → w.op = 0#1) → t.dest = s.dest) ∧
      ((∃ w, s.port = some w ∧ w.op ≠ 0#1) → t.dest = [])) ∧
    (s.phase = .drain →
      (t.dest = s.dest ∧ t.trace = s.trace) ∨
      (t.trace = s.trace ++ [.destWrite s.filled (s.stageRead s.rd.toNat)] ∧
        t.destRead s.filled = some (s.stageRead s.rd.toNat) ∧ ∀ j, j ≠ s.filled → t.destRead j = s.destRead j))

/-! ### RUN and READ -/

/-- R131, R158: one `RUN`, from any state, never overflows the staging RAM: it emits at most 144 bytes, and no fault is
possible. That `EMIT` is never reached with 144 bytes staged is the spec's own inference in R131. -/
def Obligations.RunNeverOverflowsStaging : Prop :=
  ∀ s : State, (∀ f, runRun s ≠ .fault f) ∧ ∀ t, runRun s = .next t → t.fill.toNat ≤ 144

/-- R157: a `RUN` that ends has either executed all eight commands, with 8 to 144 bytes staged, or ended at a pull that
failed, with at most 126; and it has staged nothing exactly when the bitmap pull or the pull of command 0 failed. The spec
derives R157 from R150. -/
def Obligations.RunEndsInOneOfTwoWays : Prop :=
  ∀ s t : State, runRun s = .next t →
    ((t.bit = 8#4 ∧ t.trace.getLast? ≠ some (.answer .fail) ∧ 8 ≤ t.fill.toNat ∧ t.fill.toNat ≤ 144) ∨
      (t.trace.getLast? = some (.answer .fail) ∧ t.fill.toNat ≤ 126)) ∧
    (t.fill.toNat = 0 ↔
      t.trace = s.trace ++ [.pull 1, .answer .fail] ∨
      ∃ f k, t.trace = s.trace ++ [.pull 1, .answer (.ok [f]), .pull k, .answer .fail])

/-- R159: a complete `RUN` issues exactly nine pulls, and the bytes they ask for are 17 - popcount(`BMP`); an aborted one
issues between one and nine, of which the last one failed. The spec derives R159 from R150. -/
def Obligations.PullsOfARun : Prop :=
  ∀ s t : State, runRun s = .next t →
    ∃ es, t.trace = s.trace ++ es ∧
      (es.getLast? ≠ some (.answer .fail) →
        (pullCounts es).length = 9 ∧ (pullCounts es).sum = 17 - popcount t.bmp ∧ Event.answer .fail ∉ es) ∧
      (es.getLast? = some (.answer .fail) →
        1 ≤ (pullCounts es).length ∧ (pullCounts es).length ≤ 9 ∧ Event.answer .fail ∉ es.dropLast)

/-- R186, R65, R66: a `READ(n)` on an idle block that meets the invariant, when it returns: it has written destination
indices 0, 1, …, `actual` - 1 in that order and no others, it returns `actual` ≤ n as its last event, and `actual` < n only
when its last run staged nothing because a pull failed, which leaves `FILL` = `RD` = 0. The ascending order of the writes is
the spec's decision D16. -/
def Obligations.ReadResult : Prop :=
  ∀ (s t : State) (n : Nat), s.Inv → s.phase = .idle → s.valid = true → bigRead n s = .next t →
    t.filled ≤ n ∧
    ∃ es, t.trace = s.trace ++ es ++ [.returned t.filled] ∧
      (destWrites es).map Prod.fst = List.range t.filled ∧
      (destWrites es).map Prod.snd = t.deliveredBytes ∧
      (∀ j, t.filled ≤ j → t.destRead j = none) ∧
      (t.filled < n → t.fill = 0#8 ∧ t.rd = 0#8 ∧ es.getLast? = some (.answer .fail))

/-- R223: for every state with `VALID` = 1 and `PHASE` = `IDLE` that meets the invariant, every n and every source, the
sequencer run from the request to the next idle state ends as the big-step `READ(n)` ends: both return, with the same trace,
destination, length, source and persistent state, or both stop for the same reason. The spec states R223 as its own
inference. -/
def Obligations.SequencerAgreesWithRead : Prop :=
  ∀ (s : State) (n : Nat), s.Inv → s.phase = .idle → s.valid = true → s.port = none →
    ∃ k, EndAlike (andThen (exec (.read n) s) (runToIdle k)) (bigRead n s)

/-- R191: a `READ(n)` ends. Within 176 × (n + 1) steps of the sequencer the core is idle again, unless a pull was not
answered or answered against the contract; there is no other way not to finish. The spec derives R191 from R180; the bound in
steps is the model's own count, and the answer against the contract is log 8. -/
def Obligations.ReadTerminates : Prop :=
  ∀ (s t : State) (n : Nat), s.Inv → s.port = none → exec (.read n) s = .next t →
    ∃ k, k ≤ 176 * (n + 1) ∧
      ((∃ u, steps k t = .next u ∧ u.phase = .idle) ∨ steps k t = .refused .pullUnanswered ∨
        steps k t = .refused .sourceContract)

/-- R192, R193: chunking independence. Under `STREAM(S)`, whatever sizes n the host chooses, every `READ` returns; the bytes
delivered so far are always the first n₁ + … + nᵢ bytes of `DEC(S)`; so up to and including the first `READ` that returns
short they are all of `DEC(S)`, and every later `READ` returns nothing. The spec derives R192 and R193 from R150, R180 and
R62. -/
def Obligations.ChunkingIndependence : Prop :=
  ∀ (bytes : List Byte) (spend : Bool) (ns : List Nat),
    ∃ ds t, readSession ns (sessionStart bytes spend) = some (ds, t) ∧ ds.length = ns.length ∧
      (∀ i, i ≤ ns.length → (ds.take i).flatten = (decString bytes).take (ns.take i).sum) ∧
      ∀ i d n, ds[i]? = some d → ns[i]? = some n → d.length < n →
        (ds.take (i + 1)).flatten = decString bytes ∧ ∀ j e, i < j → ds[j]? = some e → e = []

/-- R154: literal-only input, bitmap 0xFF for each run, decodes to the concatenation of the literal bytes, in order; also
when the last run is cut short. A cut-short last run is not in R154; it follows from R153. -/
def Obligations.LiteralOnlyStreams : Prop :=
  ∀ (blocks : List (List Byte)) (last : List Byte), (∀ b ∈ blocks, b.length = 8) → last.length ≤ 8 →
    decString (blocks.flatMap fun b => 0xFF#8 :: b) = blocks.flatten ∧
    decString ((blocks.flatMap fun b => 0xFF#8 :: b) ++ 0xFF#8 :: last) = blocks.flatten ++ last

/-- R122, R39: after an `INIT` nothing of the state before it shows. From any two states whatever, with the same source
attached, every sequence of `READ`s either returns in both, with the same bytes, the same pulls, the same destination writes
and the same lengths, or in neither. What `STAGE`, the ring, the cursors and the transient registers held is unobservable.
That a second `INIT` is allowed is the spec's decision D8. -/
def Obligations.InitForgetsThePast : Prop :=
  ∀ (s s' : State) (ns : List Nat), s.source = s'.source → s.trace = s'.trace →
    (readSession ns s.initialised).map (fun r => (r.1, r.2.trace, r.2.source)) =
      (readSession ns s'.initialised).map (fun r => (r.1, r.2.trace, r.2.source))
end

