-- ==== Sys2Proof/Laws/Decode.lean ====
section
/-! SUPPORT. The decoder, case by case, and the two operand bytes of a copy. -/

namespace Sys2Proof

@[simp] theorem decode_host (w : HostWord) : decode (.host w) = .ok (if w.op = 0#1 then .init else .read w.n) := by
  simp [decode, decodeHost]

@[simp] theorem decode_bmp (f : Byte) : decode (.stream .xBmp [f]) = .ok (.bmp f) := rfl
@[simp] theorem decode_lit (d : Byte) : decode (.stream .xLit [d]) = .ok (.lit d) := rfl
@[simp] theorem decode_cpy (c0 c1 : Byte) :
    decode (.stream .xCpy [c0, c1]) = .ok (.cpy (copyStart c0 c1) (copyLen c1)) := rfl

theorem decode_stream (p : PullPoint) (bytes : List Byte) : decode (.stream p bytes) = decodeStream p bytes := rfl

/-- What the stream decoder accepts at each point. -/
theorem decode_stream_ok {p : PullPoint} {bytes : List Byte} {i : Instr} (h : decode (.stream p bytes) = .ok i) :
    (∃ f, p = .xBmp ∧ bytes = [f] ∧ i = .bmp f) ∨ (∃ d, p = .xLit ∧ bytes = [d] ∧ i = .lit d) ∨
      ∃ c0 c1, p = .xCpy ∧ bytes = [c0, c1] ∧ i = .cpy (copyStart c0 c1) (copyLen c1) := by
  rw [decode_stream] at h
  unfold decodeStream at h
  split at h <;> cases h
  · exact .inl ⟨_, rfl, rfl, rfl⟩
  · exact .inr (.inl ⟨_, rfl, rfl, rfl⟩)
  · exact .inr (.inr ⟨_, _, rfl, rfl, rfl⟩)

/-- What it rejects: exactly the wrong number of bytes (R59). -/
theorem decode_stream_error {p : PullPoint} {bytes : List Byte} {r : Reject}
    (h : decode (.stream p bytes) = .error r) :
    bytes.length ≠ p.count ∧ r = if bytes.length < p.count then .tooFewBytes else .tooManyBytes := by
  have hr : ∀ bytes : List Byte, bytes.length ≠ p.count →
      decode (.stream p bytes) = .error (if bytes.length < p.count then .tooFewBytes else .tooManyBytes) := by
    intro bytes hb
    rw [decode_stream]
    unfold decodeStream
    split
    · exact absurd rfl hb
    · exact absurd rfl hb
    · exact absurd rfl hb
    · rfl
  by_cases hb : bytes.length = p.count
  · exfalso
    cases p with
    | xBmp => obtain ⟨f, rfl⟩ := List.length_eq_one_iff.mp hb; cases h
    | xLit => obtain ⟨d, rfl⟩ := List.length_eq_one_iff.mp hb; cases h
    | xCpy => obtain ⟨c0, c1, rfl⟩ := List.length_eq_two.mp hb; cases h
  · rw [hr bytes hb] at h
    cases h
    exact ⟨hb, rfl⟩

theorem copyStart_toNat (c0 c1 : Byte) : (copyStart c0 c1).toNat = 256 * (c1.toNat / 16) + c0.toNat := by
  have h0 : c0.toNat < 256 := c0.isLt
  have h1 : c1.toNat < 256 := c1.isLt
  have h2 : c1.toNat / 16 < 16 := by omega
  simp only [copyStart, BitVec.toNat_append, BitVec.extractLsb'_toNat, Nat.shiftRight_eq_div_pow]
  rw [← Nat.shiftLeft_add_eq_or_of_lt c0.isLt, Nat.shiftLeft_eq]
  omega

theorem copyLen_toNat (c1 : Byte) : (copyLen c1).toNat = c1.toNat % 16 + 3 := by
  simp only [copyLen, BitVec.toNat_add, BitVec.toNat_setWidth, BitVec.extractLsb'_toNat, Nat.shiftRight_zero,
    BitVec.toNat_ofNat]
  omega

/-- The length of a copy is 3 to 18 (R96, R156). -/
theorem copyLen_range (c1 : Byte) : 3 ≤ (copyLen c1).toNat ∧ (copyLen c1).toNat ≤ 18 := by
  rw [copyLen_toNat]; omega

theorem copyByte0_toNat (start : RingIndex) : (copyByte0 start).toNat = start.toNat % 256 := by
  have h : start.toNat &&& 0xFF = start.toNat % 256 := Nat.and_two_pow_sub_one_eq_mod start.toNat 8
  simp only [copyByte0, BitVec.toNat_ofNat, h]
  omega

theorem copyByte1_toNat (start : RingIndex) (len : CopyCount) (h3 : 3 ≤ len.toNat) (h18 : len.toNat ≤ 18) :
    (copyByte1 start len).toNat = 16 * (start.toNat / 256) + (len.toNat - 3) := by
  have hs : start.toNat < 4096 := start.isLt
  have hmask : (start.toNat >>> 4) &&& 0xF0 = 16 * (start.toNat / 256) := by
    have e : (0xF0 : Nat) = (2 ^ 4 - 1) <<< 4 := rfl
    rw [e, show start.toNat >>> 4 = start.toNat >>> 4 from rfl]
    apply Nat.eq_of_testBit_eq
    intro i
    rw [show 16 * (start.toNat / 256) = (start.toNat >>> 8) <<< 4 by
      rw [Nat.shiftLeft_eq, Nat.shiftRight_eq_div_pow]; omega]
    simp only [Nat.testBit_and, Nat.testBit_shiftRight, Nat.testBit_shiftLeft, Nat.testBit_two_pow_sub_one]
    by_cases h4 : 4 ≤ i
    · by_cases h8 : i - 4 < 4
      · simp [h4, h8, show 8 + (i - 4) = 4 + i by omega]
      · have : start.toNat.testBit (8 + (i - 4)) = false :=
          Nat.testBit_lt_two_pow (lt_of_lt_of_le hs (by
            calc 4096 = 2 ^ 12 := rfl
              _ ≤ 2 ^ (8 + (i - 4)) := Nat.pow_le_pow_right (by decide) (by omega)))
        simp [h4, h8, this]
    · simp [h4]
  simp only [copyByte1, BitVec.toNat_ofNat, hmask, Config.threshold]
  rw [show 16 * (start.toNat / 256) = (start.toNat / 256) <<< 4 by rw [Nat.shiftLeft_eq]; omega,
    ← Nat.shiftLeft_add_eq_or_of_lt (show len.toNat - 3 < 2 ^ 4 by omega), Nat.shiftLeft_eq]
  omega

/-- The operand bytes of a copy assemble to its start (R96, R97). -/
theorem copyStart_copyBytes (start : RingIndex) (len : CopyCount) (h3 : 3 ≤ len.toNat) (h18 : len.toNat ≤ 18) :
    copyStart (copyByte0 start) (copyByte1 start len) = start := by
  have hs : start.toNat < 4096 := start.isLt
  apply BitVec.eq_of_toNat_eq
  rw [copyStart_toNat, copyByte0_toNat, copyByte1_toNat start len h3 h18]
  omega

/-- The operand bytes of a copy assemble to its length (R96, R97). -/
theorem copyLen_copyBytes (start : RingIndex) (len : CopyCount) (h3 : 3 ≤ len.toNat) (h18 : len.toNat ≤ 18) :
    copyLen (copyByte1 start len) = len := by
  have hs : start.toNat < 4096 := start.isLt
  apply BitVec.eq_of_toNat_eq
  rw [copyLen_toNat, copyByte1_toNat start len h3 h18]
  omega

/-- The operand bytes of a decoded copy are the bytes it was decoded from. -/
theorem copyBytes_decoded (c0 c1 : Byte) :
    copyByte0 (copyStart c0 c1) = c0 ∧ copyByte1 (copyStart c0 c1) (copyLen c1) = c1 := by
  have h0 : c0.toNat < 256 := c0.isLt
  have h1 : c1.toNat < 256 := c1.isLt
  have hr := copyLen_range c1
  constructor <;> apply BitVec.eq_of_toNat_eq
  · rw [copyByte0_toNat, copyStart_toNat]; omega
  · rw [copyByte1_toNat _ _ hr.1 hr.2, copyStart_toNat, copyLen_toNat]; omega

end Sys2Proof
end

