-- ==== Sys2Proof/Laws/Memory.lean ====
section
/-! SUPPORT. The laws of memory: read after write, the canonical form kept by every operation, and canonical memories with
equal reads are equal. -/

namespace Sys2Proof.Machine

@[simp] theorem Memory.lookup_nil (a : Nat) : Memory.lookup [] a = none := rfl

theorem Memory.lookup_cons (b : Nat) (v : Byte) (m : Memory) (a : Nat) :
    Memory.lookup ((b, v) :: m) a = if b = a then some v else Memory.lookup m a := rfl

theorem Memory.lookup_put (m : Memory) (a : Nat) (v : Byte) (c : Nat) :
    (Memory.put m a v).lookup c = if a = c then some v else m.lookup c := by
  induction m with
  | nil => simp [Memory.put, Memory.lookup_cons]
  | cons cell m ih =>
    obtain ⟨b, w⟩ := cell
    unfold Memory.put
    split
    · simp [Memory.lookup_cons]
    · split
      · subst_vars
        simp only [Memory.lookup_cons]
        split <;> simp_all
      · simp only [Memory.lookup_cons, ih]
        split
        · rw [if_neg]; omega
        · rfl

theorem Memory.lookup_remove (m : Memory) (a c : Nat) :
    (Memory.remove m a).lookup c = if a = c then none else m.lookup c := by
  induction m with
  | nil => simp [Memory.remove]
  | cons cell m ih =>
    obtain ⟨b, w⟩ := cell
    unfold Memory.remove
    split
    · subst_vars
      rw [ih, Memory.lookup_cons]
      split <;> simp_all
    · simp only [Memory.lookup_cons, ih]
      split
      · rw [if_neg]; omega
      · rfl

/-- A byte read after a write: the byte written, at its address; the old byte everywhere else (R68). -/
theorem Memory.read_write (d : Byte) (m : Memory) (a : Nat) (v : Byte) (c : Nat) :
    (Memory.write (some d) m a v).read d c = if a = c then v else m.read d c := by
  unfold Memory.write Memory.read
  split
  · rename_i h
    cases h
    rw [Memory.lookup_remove]
    split <;> simp
  · rw [Memory.lookup_put]
    split <;> simp

/-- The same for a memory whose unlisted addresses hold no value. -/
theorem Memory.lookup_write_none (m : Memory) (a : Nat) (v : Byte) (c : Nat) :
    (Memory.write none m a v).lookup c = if a = c then some v else m.lookup c := by
  simp [Memory.write, Memory.lookup_put]

theorem Memory.rising_cons (u : Option Byte) (size lo a : Nat) (v : Byte) (m : Memory) :
    Memory.rising u size lo ((a, v) :: m) = true ↔
      lo ≤ a ∧ a < size ∧ u ≠ some v ∧ Memory.rising u size (a + 1) m = true := by
  simp [Memory.rising, and_assoc]

theorem Memory.rising_weaken (u : Option Byte) (size lo lo' : Nat) (m : Memory) (hle : lo' ≤ lo)
    (h : m.rising u size lo = true) : m.rising u size lo' = true := by
  cases m with
  | nil => rfl
  | cons cell m =>
    obtain ⟨a, v⟩ := cell
    rw [Memory.rising_cons] at h ⊢
    exact ⟨by omega, h.2⟩

theorem Memory.rising_put (u : Option Byte) (size lo a : Nat) (v : Byte) (m : Memory) (hlo : lo ≤ a) (ha : a < size)
    (hv : u ≠ some v) (h : m.rising u size lo = true) : (Memory.put m a v).rising u size lo = true := by
  induction m generalizing lo with
  | nil => simp [Memory.put, Memory.rising, hlo, ha, hv]
  | cons cell m ih =>
    obtain ⟨b, w⟩ := cell
    rw [Memory.rising_cons] at h
    obtain ⟨h1, h2, h3, h4⟩ := h
    unfold Memory.put
    split
    · rw [Memory.rising_cons, Memory.rising_cons]
      exact ⟨hlo, ha, hv, by omega, h2, h3, h4⟩
    · split
      · subst_vars
        rw [Memory.rising_cons]
        exact ⟨hlo, ha, hv, h4⟩
      · rw [Memory.rising_cons]
        exact ⟨h1, h2, h3, ih (b + 1) (by omega) h4⟩

theorem Memory.rising_remove (u : Option Byte) (size lo a : Nat) (m : Memory) (h : m.rising u size lo = true) :
    (Memory.remove m a).rising u size lo = true := by
  induction m generalizing lo with
  | nil => rfl
  | cons cell m ih =>
    obtain ⟨b, w⟩ := cell
    rw [Memory.rising_cons] at h
    obtain ⟨h1, h2, h3, h4⟩ := h
    unfold Memory.remove
    split
    · exact ih lo (Memory.rising_weaken u size (b + 1) lo m (by omega) h4)
    · rw [Memory.rising_cons]
      exact ⟨h1, h2, h3, ih (b + 1) h4⟩

@[simp] theorem Memory.wf_nil (u : Option Byte) (size : Nat) : Memory.wf u size [] = true := rfl

/-- A write inside the memory keeps the canonical form. -/
theorem Memory.wf_write (u : Option Byte) (size : Nat) (m : Memory) (a : Nat) (v : Byte) (ha : a < size)
    (h : m.wf u size = true) : (Memory.write u m a v).wf u size = true := by
  unfold Memory.write
  split
  · exact Memory.rising_remove u size 0 a m h
  · rename_i hv
    exact Memory.rising_put u size 0 a v m (Nat.zero_le a) ha hv h

/-- A listed cell of a canonical memory lies inside it, past the bound, and holds no unlisted byte. -/
theorem Memory.lookup_of_rising (u : Option Byte) (size lo : Nat) (m : Memory) (h : m.rising u size lo = true) (a : Nat)
    (v : Byte) (hl : m.lookup a = some v) : lo ≤ a ∧ a < size ∧ u ≠ some v := by
  induction m generalizing lo with
  | nil => simp at hl
  | cons cell m ih =>
    obtain ⟨b, w⟩ := cell
    rw [Memory.rising_cons] at h
    obtain ⟨h1, h2, h3, h4⟩ := h
    rw [Memory.lookup_cons] at hl
    split at hl
    · cases hl; subst_vars; exact ⟨h1, h2, h3⟩
    · have := ih (b + 1) h4 hl
      exact ⟨by omega, this.2⟩

/-- Two canonical memories with the same cells are equal. -/
theorem Memory.eq_of_lookup_eq (u : Option Byte) (size lo : Nat) (m m' : Memory) (h : m.rising u size lo = true)
    (h' : m'.rising u size lo = true) (e : ∀ a, m.lookup a = m'.lookup a) : m = m' := by
  induction m generalizing lo m' with
  | nil =>
    cases m' with
    | nil => rfl
    | cons cell m' =>
      have := e cell.1
      simp [Memory.lookup] at this
  | cons cell m ih =>
    obtain ⟨b, w⟩ := cell
    cases m' with
    | nil =>
      have := e b
      simp [Memory.lookup] at this
    | cons cell' m' =>
      obtain ⟨b', w'⟩ := cell'
      rw [Memory.rising_cons] at h h'
      obtain ⟨h1, h2, h3, h4⟩ := h
      obtain ⟨h1', h2', h3', h4'⟩ := h'
      have hb : b = b' := by
        have eb := e b
        have eb' := e b'
        simp only [Memory.lookup_cons, if_true] at eb eb'
        by_contra hne
        rw [if_neg (Ne.symm hne)] at eb
        rw [if_neg hne] at eb'
        have := (Memory.lookup_of_rising u size (b' + 1) m' h4' b w eb.symm).1
        have := (Memory.lookup_of_rising u size (b + 1) m h4 b' w' eb').1
        omega
      subst hb
      have hw : w = w' := by simpa [Memory.lookup_cons] using e b
      subst hw
      refine congrArg _ (ih (b + 1) m' h4 h4' fun a => ?_)
      have ea := e a
      simp only [Memory.lookup_cons] at ea
      split at ea
      · rename_i hba
        subst hba
        have none_at : ∀ k : Memory, k.rising u size (b + 1) = true → k.lookup b = none := fun k hk => by
          cases hc : k.lookup b with
          | none => rfl
          | some v =>
            have := (Memory.lookup_of_rising u size (b + 1) k hk b v hc).1
            omega
        rw [none_at m h4, none_at m' h4']
      · exact ea

/-- Two canonical memories of one size that read alike are equal. -/
theorem Memory.eq_of_read_eq (d : Byte) (size : Nat) (m m' : Memory) (h : m.wf (some d) size = true)
    (h' : m'.wf (some d) size = true) (e : ∀ a, m.read d a = m'.read d a) : m = m' := by
  refine Memory.eq_of_lookup_eq (some d) size 0 m m' h h' fun a => ?_
  have ea := e a
  unfold Memory.read at ea
  cases hm : m.lookup a with
  | none =>
    cases hm' : m'.lookup a with
    | none => rfl
    | some v =>
      have := (Memory.lookup_of_rising (some d) size 0 m' h' a v hm').2.2
      simp_all
  | some v =>
    cases hm' : m'.lookup a with
    | none =>
      have := (Memory.lookup_of_rising (some d) size 0 m h a v hm).2.2
      simp_all
    | some v' => simp_all

end Sys2Proof.Machine
end

