-- ==== Sys2Proof/Laws/State.lean ====
section
/-! SUPPORT. The fields of the state after each named update: one lemma per field and update, all by rfl. -/

namespace Sys2Proof.Machine

variable (s : State)

/-! `State.record` -/
@[simp] theorem State.record_ring (e : Event) : (s.record e).ring = s.ring := rfl
@[simp] theorem State.record_wpos (e : Event) : (s.record e).wpos = s.wpos := rfl
@[simp] theorem State.record_stage (e : Event) : (s.record e).stage = s.stage := rfl
@[simp] theorem State.record_fill (e : Event) : (s.record e).fill = s.fill := rfl
@[simp] theorem State.record_rd (e : Event) : (s.record e).rd = s.rd := rfl
@[simp] theorem State.record_valid (e : Event) : (s.record e).valid = s.valid := rfl
@[simp] theorem State.record_emitted (e : Event) : (s.record e).emitted = s.emitted := rfl
@[simp] theorem State.record_n (e : Event) : (s.record e).n = s.n := rfl
@[simp] theorem State.record_filled (e : Event) : (s.record e).filled = s.filled := rfl
@[simp] theorem State.record_bmp (e : Event) : (s.record e).bmp = s.bmp := rfl
@[simp] theorem State.record_bit (e : Event) : (s.record e).bit = s.bit := rfl
@[simp] theorem State.record_c0 (e : Event) : (s.record e).c0 = s.c0 := rfl
@[simp] theorem State.record_c1 (e : Event) : (s.record e).c1 = s.c1 := rfl
@[simp] theorem State.record_start (e : Event) : (s.record e).start = s.start := rfl
@[simp] theorem State.record_len (e : Event) : (s.record e).len = s.len := rfl
@[simp] theorem State.record_idx (e : Event) : (s.record e).idx = s.idx := rfl
@[simp] theorem State.record_phase (e : Event) : (s.record e).phase = s.phase := rfl
@[simp] theorem State.record_port (e : Event) : (s.record e).port = s.port := rfl
@[simp] theorem State.record_host (e : Event) : (s.record e).host = s.host := rfl
@[simp] theorem State.record_source (e : Event) : (s.record e).source = s.source := rfl
@[simp] theorem State.record_dest (e : Event) : (s.record e).dest = s.dest := rfl
@[simp] theorem State.record_trace (e : Event) : (s.record e).trace = s.trace ++ [e] := rfl

/-! `State.initialised` -/
@[simp] theorem State.initialised_ring : s.initialised.ring = [] := rfl
@[simp] theorem State.initialised_wpos : s.initialised.wpos = Config.startOffset := rfl
@[simp] theorem State.initialised_stage : s.initialised.stage = s.stage := rfl
@[simp] theorem State.initialised_fill : s.initialised.fill = 0#8 := rfl
@[simp] theorem State.initialised_rd : s.initialised.rd = 0#8 := rfl
@[simp] theorem State.initialised_valid : s.initialised.valid = true := rfl
@[simp] theorem State.initialised_emitted : s.initialised.emitted = [] := rfl
@[simp] theorem State.initialised_n : s.initialised.n = s.n := rfl
@[simp] theorem State.initialised_filled : s.initialised.filled = s.filled := rfl
@[simp] theorem State.initialised_bmp : s.initialised.bmp = s.bmp := rfl
@[simp] theorem State.initialised_bit : s.initialised.bit = s.bit := rfl
@[simp] theorem State.initialised_c0 : s.initialised.c0 = s.c0 := rfl
@[simp] theorem State.initialised_c1 : s.initialised.c1 = s.c1 := rfl
@[simp] theorem State.initialised_start : s.initialised.start = s.start := rfl
@[simp] theorem State.initialised_len : s.initialised.len = s.len := rfl
@[simp] theorem State.initialised_idx : s.initialised.idx = s.idx := rfl
@[simp] theorem State.initialised_phase : s.initialised.phase = s.phase := rfl
@[simp] theorem State.initialised_port : s.initialised.port = s.port := rfl
@[simp] theorem State.initialised_host : s.initialised.host = s.host := rfl
@[simp] theorem State.initialised_source : s.initialised.source = s.source := rfl
@[simp] theorem State.initialised_dest : s.initialised.dest = s.dest := rfl
@[simp] theorem State.initialised_trace : s.initialised.trace = s.trace := rfl

/-! `State.emitByte` -/
@[simp] theorem State.emitByte_ring (b : Byte) : (s.emitByte b).ring = s.ring.write (some Config.ringUnlisted) s.wpos.toNat b := rfl
@[simp] theorem State.emitByte_wpos (b : Byte) : (s.emitByte b).wpos = s.wpos + 1#12 := rfl
@[simp] theorem State.emitByte_stage (b : Byte) : (s.emitByte b).stage = s.stage.write (some Config.stageUnlisted) s.fill.toNat b := rfl
@[simp] theorem State.emitByte_fill (b : Byte) : (s.emitByte b).fill = s.fill + 1#8 := rfl
@[simp] theorem State.emitByte_rd (b : Byte) : (s.emitByte b).rd = s.rd := rfl
@[simp] theorem State.emitByte_valid (b : Byte) : (s.emitByte b).valid = s.valid := rfl
@[simp] theorem State.emitByte_emitted (b : Byte) : (s.emitByte b).emitted = b :: s.emitted := rfl
@[simp] theorem State.emitByte_n (b : Byte) : (s.emitByte b).n = s.n := rfl
@[simp] theorem State.emitByte_filled (b : Byte) : (s.emitByte b).filled = s.filled := rfl
@[simp] theorem State.emitByte_bmp (b : Byte) : (s.emitByte b).bmp = s.bmp := rfl
@[simp] theorem State.emitByte_bit (b : Byte) : (s.emitByte b).bit = s.bit := rfl
@[simp] theorem State.emitByte_c0 (b : Byte) : (s.emitByte b).c0 = s.c0 := rfl
@[simp] theorem State.emitByte_c1 (b : Byte) : (s.emitByte b).c1 = s.c1 := rfl
@[simp] theorem State.emitByte_start (b : Byte) : (s.emitByte b).start = s.start := rfl
@[simp] theorem State.emitByte_len (b : Byte) : (s.emitByte b).len = s.len := rfl
@[simp] theorem State.emitByte_idx (b : Byte) : (s.emitByte b).idx = s.idx := rfl
@[simp] theorem State.emitByte_phase (b : Byte) : (s.emitByte b).phase = s.phase := rfl
@[simp] theorem State.emitByte_port (b : Byte) : (s.emitByte b).port = s.port := rfl
@[simp] theorem State.emitByte_host (b : Byte) : (s.emitByte b).host = s.host := rfl
@[simp] theorem State.emitByte_source (b : Byte) : (s.emitByte b).source = s.source := rfl
@[simp] theorem State.emitByte_dest (b : Byte) : (s.emitByte b).dest = s.dest := rfl
@[simp] theorem State.emitByte_trace (b : Byte) : (s.emitByte b).trace = s.trace := rfl

/-! `State.destWrite` -/
@[simp] theorem State.destWrite_ring (j : Nat) (v : Byte) : (s.destWrite j v).ring = s.ring := rfl
@[simp] theorem State.destWrite_wpos (j : Nat) (v : Byte) : (s.destWrite j v).wpos = s.wpos := rfl
@[simp] theorem State.destWrite_stage (j : Nat) (v : Byte) : (s.destWrite j v).stage = s.stage := rfl
@[simp] theorem State.destWrite_fill (j : Nat) (v : Byte) : (s.destWrite j v).fill = s.fill := rfl
@[simp] theorem State.destWrite_rd (j : Nat) (v : Byte) : (s.destWrite j v).rd = s.rd := rfl
@[simp] theorem State.destWrite_valid (j : Nat) (v : Byte) : (s.destWrite j v).valid = s.valid := rfl
@[simp] theorem State.destWrite_emitted (j : Nat) (v : Byte) : (s.destWrite j v).emitted = s.emitted := rfl
@[simp] theorem State.destWrite_n (j : Nat) (v : Byte) : (s.destWrite j v).n = s.n := rfl
@[simp] theorem State.destWrite_filled (j : Nat) (v : Byte) : (s.destWrite j v).filled = s.filled := rfl
@[simp] theorem State.destWrite_bmp (j : Nat) (v : Byte) : (s.destWrite j v).bmp = s.bmp := rfl
@[simp] theorem State.destWrite_bit (j : Nat) (v : Byte) : (s.destWrite j v).bit = s.bit := rfl
@[simp] theorem State.destWrite_c0 (j : Nat) (v : Byte) : (s.destWrite j v).c0 = s.c0 := rfl
@[simp] theorem State.destWrite_c1 (j : Nat) (v : Byte) : (s.destWrite j v).c1 = s.c1 := rfl
@[simp] theorem State.destWrite_start (j : Nat) (v : Byte) : (s.destWrite j v).start = s.start := rfl
@[simp] theorem State.destWrite_len (j : Nat) (v : Byte) : (s.destWrite j v).len = s.len := rfl
@[simp] theorem State.destWrite_idx (j : Nat) (v : Byte) : (s.destWrite j v).idx = s.idx := rfl
@[simp] theorem State.destWrite_phase (j : Nat) (v : Byte) : (s.destWrite j v).phase = s.phase := rfl
@[simp] theorem State.destWrite_port (j : Nat) (v : Byte) : (s.destWrite j v).port = s.port := rfl
@[simp] theorem State.destWrite_host (j : Nat) (v : Byte) : (s.destWrite j v).host = s.host := rfl
@[simp] theorem State.destWrite_source (j : Nat) (v : Byte) : (s.destWrite j v).source = s.source := rfl
@[simp] theorem State.destWrite_dest (j : Nat) (v : Byte) : (s.destWrite j v).dest = s.dest.write none j v := rfl
@[simp] theorem State.destWrite_trace (j : Nat) (v : Byte) : (s.destWrite j v).trace = s.trace ++ [.destWrite j v] := rfl

/-! `State.deliverByte` -/
@[simp] theorem State.deliverByte_ring : s.deliverByte.ring = s.ring := rfl
@[simp] theorem State.deliverByte_wpos : s.deliverByte.wpos = s.wpos := rfl
@[simp] theorem State.deliverByte_stage : s.deliverByte.stage = s.stage := rfl
@[simp] theorem State.deliverByte_fill : s.deliverByte.fill = s.fill := rfl
@[simp] theorem State.deliverByte_rd : s.deliverByte.rd = s.rd + 1#8 := rfl
@[simp] theorem State.deliverByte_valid : s.deliverByte.valid = s.valid := rfl
@[simp] theorem State.deliverByte_emitted : s.deliverByte.emitted = s.emitted := rfl
@[simp] theorem State.deliverByte_n : s.deliverByte.n = s.n := rfl
@[simp] theorem State.deliverByte_filled : s.deliverByte.filled = s.filled + 1 := rfl
@[simp] theorem State.deliverByte_bmp : s.deliverByte.bmp = s.bmp := rfl
@[simp] theorem State.deliverByte_bit : s.deliverByte.bit = s.bit := rfl
@[simp] theorem State.deliverByte_c0 : s.deliverByte.c0 = s.c0 := rfl
@[simp] theorem State.deliverByte_c1 : s.deliverByte.c1 = s.c1 := rfl
@[simp] theorem State.deliverByte_start : s.deliverByte.start = s.start := rfl
@[simp] theorem State.deliverByte_len : s.deliverByte.len = s.len := rfl
@[simp] theorem State.deliverByte_idx : s.deliverByte.idx = s.idx := rfl
@[simp] theorem State.deliverByte_phase : s.deliverByte.phase = s.phase := rfl
@[simp] theorem State.deliverByte_port : s.deliverByte.port = s.port := rfl
@[simp] theorem State.deliverByte_host : s.deliverByte.host = s.host := rfl
@[simp] theorem State.deliverByte_source : s.deliverByte.source = s.source := rfl
@[simp] theorem State.deliverByte_dest : s.deliverByte.dest = s.dest.write none s.filled (s.stageRead s.rd.toNat) := rfl
@[simp] theorem State.deliverByte_trace : s.deliverByte.trace = s.trace ++ [.destWrite s.filled (s.stageRead s.rd.toNat)] := rfl

/-! `State.readStarted` -/
@[simp] theorem State.readStarted_ring (n : Nat) : (s.readStarted n).ring = s.ring := rfl
@[simp] theorem State.readStarted_wpos (n : Nat) : (s.readStarted n).wpos = s.wpos := rfl
@[simp] theorem State.readStarted_stage (n : Nat) : (s.readStarted n).stage = s.stage := rfl
@[simp] theorem State.readStarted_fill (n : Nat) : (s.readStarted n).fill = s.fill := rfl
@[simp] theorem State.readStarted_rd (n : Nat) : (s.readStarted n).rd = s.rd := rfl
@[simp] theorem State.readStarted_valid (n : Nat) : (s.readStarted n).valid = s.valid := rfl
@[simp] theorem State.readStarted_emitted (n : Nat) : (s.readStarted n).emitted = s.emitted := rfl
@[simp] theorem State.readStarted_n (n : Nat) : (s.readStarted n).n = n := rfl
@[simp] theorem State.readStarted_filled (n : Nat) : (s.readStarted n).filled = 0 := rfl
@[simp] theorem State.readStarted_bmp (n : Nat) : (s.readStarted n).bmp = s.bmp := rfl
@[simp] theorem State.readStarted_bit (n : Nat) : (s.readStarted n).bit = s.bit := rfl
@[simp] theorem State.readStarted_c0 (n : Nat) : (s.readStarted n).c0 = s.c0 := rfl
@[simp] theorem State.readStarted_c1 (n : Nat) : (s.readStarted n).c1 = s.c1 := rfl
@[simp] theorem State.readStarted_start (n : Nat) : (s.readStarted n).start = s.start := rfl
@[simp] theorem State.readStarted_len (n : Nat) : (s.readStarted n).len = s.len := rfl
@[simp] theorem State.readStarted_idx (n : Nat) : (s.readStarted n).idx = s.idx := rfl
@[simp] theorem State.readStarted_phase (n : Nat) : (s.readStarted n).phase = s.phase := rfl
@[simp] theorem State.readStarted_port (n : Nat) : (s.readStarted n).port = s.port := rfl
@[simp] theorem State.readStarted_host (n : Nat) : (s.readStarted n).host = s.host := rfl
@[simp] theorem State.readStarted_source (n : Nat) : (s.readStarted n).source = s.source := rfl
@[simp] theorem State.readStarted_dest (n : Nat) : (s.readStarted n).dest = [] := rfl
@[simp] theorem State.readStarted_trace (n : Nat) : (s.readStarted n).trace = s.trace := rfl

/-! `State.readReturned` -/
@[simp] theorem State.readReturned_ring : s.readReturned.ring = s.ring := rfl
@[simp] theorem State.readReturned_wpos : s.readReturned.wpos = s.wpos := rfl
@[simp] theorem State.readReturned_stage : s.readReturned.stage = s.stage := rfl
@[simp] theorem State.readReturned_fill : s.readReturned.fill = s.fill := rfl
@[simp] theorem State.readReturned_rd : s.readReturned.rd = s.rd := rfl
@[simp] theorem State.readReturned_valid : s.readReturned.valid = s.valid := rfl
@[simp] theorem State.readReturned_emitted : s.readReturned.emitted = s.emitted := rfl
@[simp] theorem State.readReturned_n : s.readReturned.n = s.n := rfl
@[simp] theorem State.readReturned_filled : s.readReturned.filled = s.filled := rfl
@[simp] theorem State.readReturned_bmp : s.readReturned.bmp = s.bmp := rfl
@[simp] theorem State.readReturned_bit : s.readReturned.bit = s.bit := rfl
@[simp] theorem State.readReturned_c0 : s.readReturned.c0 = s.c0 := rfl
@[simp] theorem State.readReturned_c1 : s.readReturned.c1 = s.c1 := rfl
@[simp] theorem State.readReturned_start : s.readReturned.start = s.start := rfl
@[simp] theorem State.readReturned_len : s.readReturned.len = s.len := rfl
@[simp] theorem State.readReturned_idx : s.readReturned.idx = s.idx := rfl
@[simp] theorem State.readReturned_phase : s.readReturned.phase = .idle := rfl
@[simp] theorem State.readReturned_port : s.readReturned.port = s.port := rfl
@[simp] theorem State.readReturned_host : s.readReturned.host = s.host := rfl
@[simp] theorem State.readReturned_source : s.readReturned.source = s.source := rfl
@[simp] theorem State.readReturned_dest : s.readReturned.dest = s.dest := rfl
@[simp] theorem State.readReturned_trace : s.readReturned.trace = s.trace ++ [.returned s.filled] := rfl

/-! `State.pullIssued` -/
@[simp] theorem State.pullIssued_ring (p : PullPoint) : (s.pullIssued p).ring = s.ring := rfl
@[simp] theorem State.pullIssued_wpos (p : PullPoint) : (s.pullIssued p).wpos = s.wpos := rfl
@[simp] theorem State.pullIssued_stage (p : PullPoint) : (s.pullIssued p).stage = s.stage := rfl
@[simp] theorem State.pullIssued_fill (p : PullPoint) : (s.pullIssued p).fill = s.fill := rfl
@[simp] theorem State.pullIssued_rd (p : PullPoint) : (s.pullIssued p).rd = s.rd := rfl
@[simp] theorem State.pullIssued_valid (p : PullPoint) : (s.pullIssued p).valid = s.valid := rfl
@[simp] theorem State.pullIssued_emitted (p : PullPoint) : (s.pullIssued p).emitted = s.emitted := rfl
@[simp] theorem State.pullIssued_n (p : PullPoint) : (s.pullIssued p).n = s.n := rfl
@[simp] theorem State.pullIssued_filled (p : PullPoint) : (s.pullIssued p).filled = s.filled := rfl
@[simp] theorem State.pullIssued_bmp (p : PullPoint) : (s.pullIssued p).bmp = s.bmp := rfl
@[simp] theorem State.pullIssued_bit (p : PullPoint) : (s.pullIssued p).bit = s.bit := rfl
@[simp] theorem State.pullIssued_c0 (p : PullPoint) : (s.pullIssued p).c0 = s.c0 := rfl
@[simp] theorem State.pullIssued_c1 (p : PullPoint) : (s.pullIssued p).c1 = s.c1 := rfl
@[simp] theorem State.pullIssued_start (p : PullPoint) : (s.pullIssued p).start = s.start := rfl
@[simp] theorem State.pullIssued_len (p : PullPoint) : (s.pullIssued p).len = s.len := rfl
@[simp] theorem State.pullIssued_idx (p : PullPoint) : (s.pullIssued p).idx = s.idx := rfl
@[simp] theorem State.pullIssued_phase (p : PullPoint) : (s.pullIssued p).phase = .wait p := rfl
@[simp] theorem State.pullIssued_port (p : PullPoint) : (s.pullIssued p).port = s.port := rfl
@[simp] theorem State.pullIssued_host (p : PullPoint) : (s.pullIssued p).host = s.host := rfl
@[simp] theorem State.pullIssued_source (p : PullPoint) : (s.pullIssued p).source = s.source := rfl
@[simp] theorem State.pullIssued_dest (p : PullPoint) : (s.pullIssued p).dest = s.dest := rfl
@[simp] theorem State.pullIssued_trace (p : PullPoint) : (s.pullIssued p).trace = s.trace ++ [.pull p.count] := rfl

/-! `State.answered` -/
@[simp] theorem State.answered_ring (a : Answer) (src : Source) : (s.answered a src).ring = s.ring := rfl
@[simp] theorem State.answered_wpos (a : Answer) (src : Source) : (s.answered a src).wpos = s.wpos := rfl
@[simp] theorem State.answered_stage (a : Answer) (src : Source) : (s.answered a src).stage = s.stage := rfl
@[simp] theorem State.answered_fill (a : Answer) (src : Source) : (s.answered a src).fill = s.fill := rfl
@[simp] theorem State.answered_rd (a : Answer) (src : Source) : (s.answered a src).rd = s.rd := rfl
@[simp] theorem State.answered_valid (a : Answer) (src : Source) : (s.answered a src).valid = s.valid := rfl
@[simp] theorem State.answered_emitted (a : Answer) (src : Source) : (s.answered a src).emitted = s.emitted := rfl
@[simp] theorem State.answered_n (a : Answer) (src : Source) : (s.answered a src).n = s.n := rfl
@[simp] theorem State.answered_filled (a : Answer) (src : Source) : (s.answered a src).filled = s.filled := rfl
@[simp] theorem State.answered_bmp (a : Answer) (src : Source) : (s.answered a src).bmp = s.bmp := rfl
@[simp] theorem State.answered_bit (a : Answer) (src : Source) : (s.answered a src).bit = s.bit := rfl
@[simp] theorem State.answered_c0 (a : Answer) (src : Source) : (s.answered a src).c0 = s.c0 := rfl
@[simp] theorem State.answered_c1 (a : Answer) (src : Source) : (s.answered a src).c1 = s.c1 := rfl
@[simp] theorem State.answered_start (a : Answer) (src : Source) : (s.answered a src).start = s.start := rfl
@[simp] theorem State.answered_len (a : Answer) (src : Source) : (s.answered a src).len = s.len := rfl
@[simp] theorem State.answered_idx (a : Answer) (src : Source) : (s.answered a src).idx = s.idx := rfl
@[simp] theorem State.answered_phase (a : Answer) (src : Source) : (s.answered a src).phase = s.phase := rfl
@[simp] theorem State.answered_port (a : Answer) (src : Source) : (s.answered a src).port = s.port := rfl
@[simp] theorem State.answered_host (a : Answer) (src : Source) : (s.answered a src).host = s.host := rfl
@[simp] theorem State.answered_source (a : Answer) (src : Source) : (s.answered a src).source = src := rfl
@[simp] theorem State.answered_dest (a : Answer) (src : Source) : (s.answered a src).dest = s.dest := rfl
@[simp] theorem State.answered_trace (a : Answer) (src : Source) : (s.answered a src).trace = s.trace ++ [.answer a] := rfl

/-! `State.runStarted` -/
@[simp] theorem State.runStarted_ring : s.runStarted.ring = s.ring := rfl
@[simp] theorem State.runStarted_wpos : s.runStarted.wpos = s.wpos := rfl
@[simp] theorem State.runStarted_stage : s.runStarted.stage = s.stage := rfl
@[simp] theorem State.runStarted_fill : s.runStarted.fill = 0#8 := rfl
@[simp] theorem State.runStarted_rd : s.runStarted.rd = s.rd := rfl
@[simp] theorem State.runStarted_valid : s.runStarted.valid = s.valid := rfl
@[simp] theorem State.runStarted_emitted : s.runStarted.emitted = s.emitted := rfl
@[simp] theorem State.runStarted_n : s.runStarted.n = s.n := rfl
@[simp] theorem State.runStarted_filled : s.runStarted.filled = s.filled := rfl
@[simp] theorem State.runStarted_bmp : s.runStarted.bmp = s.bmp := rfl
@[simp] theorem State.runStarted_bit : s.runStarted.bit = s.bit := rfl
@[simp] theorem State.runStarted_c0 : s.runStarted.c0 = s.c0 := rfl
@[simp] theorem State.runStarted_c1 : s.runStarted.c1 = s.c1 := rfl
@[simp] theorem State.runStarted_start : s.runStarted.start = s.start := rfl
@[simp] theorem State.runStarted_len : s.runStarted.len = s.len := rfl
@[simp] theorem State.runStarted_idx : s.runStarted.idx = s.idx := rfl
@[simp] theorem State.runStarted_phase : s.runStarted.phase = s.phase := rfl
@[simp] theorem State.runStarted_port : s.runStarted.port = s.port := rfl
@[simp] theorem State.runStarted_host : s.runStarted.host = s.host := rfl
@[simp] theorem State.runStarted_source : s.runStarted.source = s.source := rfl
@[simp] theorem State.runStarted_dest : s.runStarted.dest = s.dest := rfl
@[simp] theorem State.runStarted_trace : s.runStarted.trace = s.trace := rfl

/-! `State.exhausted` -/
@[simp] theorem State.exhausted_ring : s.exhausted.ring = s.ring := rfl
@[simp] theorem State.exhausted_wpos : s.exhausted.wpos = s.wpos := rfl
@[simp] theorem State.exhausted_stage : s.exhausted.stage = s.stage := rfl
@[simp] theorem State.exhausted_fill : s.exhausted.fill = s.fill := rfl
@[simp] theorem State.exhausted_rd : s.exhausted.rd = 0#8 := rfl
@[simp] theorem State.exhausted_valid : s.exhausted.valid = s.valid := rfl
@[simp] theorem State.exhausted_emitted : s.exhausted.emitted = s.emitted := rfl
@[simp] theorem State.exhausted_n : s.exhausted.n = s.n := rfl
@[simp] theorem State.exhausted_filled : s.exhausted.filled = s.filled := rfl
@[simp] theorem State.exhausted_bmp : s.exhausted.bmp = s.bmp := rfl
@[simp] theorem State.exhausted_bit : s.exhausted.bit = s.bit := rfl
@[simp] theorem State.exhausted_c0 : s.exhausted.c0 = s.c0 := rfl
@[simp] theorem State.exhausted_c1 : s.exhausted.c1 = s.c1 := rfl
@[simp] theorem State.exhausted_start : s.exhausted.start = s.start := rfl
@[simp] theorem State.exhausted_len : s.exhausted.len = s.len := rfl
@[simp] theorem State.exhausted_idx : s.exhausted.idx = s.idx := rfl
@[simp] theorem State.exhausted_phase : s.exhausted.phase = .check := rfl
@[simp] theorem State.exhausted_port : s.exhausted.port = s.port := rfl
@[simp] theorem State.exhausted_host : s.exhausted.host = s.host := rfl
@[simp] theorem State.exhausted_source : s.exhausted.source = s.source := rfl
@[simp] theorem State.exhausted_dest : s.exhausted.dest = s.dest := rfl
@[simp] theorem State.exhausted_trace : s.exhausted.trace = s.trace := rfl

/-! `State.runCompleted` -/
@[simp] theorem State.runCompleted_ring : s.runCompleted.ring = s.ring := rfl
@[simp] theorem State.runCompleted_wpos : s.runCompleted.wpos = s.wpos := rfl
@[simp] theorem State.runCompleted_stage : s.runCompleted.stage = s.stage := rfl
@[simp] theorem State.runCompleted_fill : s.runCompleted.fill = s.fill := rfl
@[simp] theorem State.runCompleted_rd : s.runCompleted.rd = 0#8 := rfl
@[simp] theorem State.runCompleted_valid : s.runCompleted.valid = s.valid := rfl
@[simp] theorem State.runCompleted_emitted : s.runCompleted.emitted = s.emitted := rfl
@[simp] theorem State.runCompleted_n : s.runCompleted.n = s.n := rfl
@[simp] theorem State.runCompleted_filled : s.runCompleted.filled = s.filled := rfl
@[simp] theorem State.runCompleted_bmp : s.runCompleted.bmp = s.bmp := rfl
@[simp] theorem State.runCompleted_bit : s.runCompleted.bit = s.bit := rfl
@[simp] theorem State.runCompleted_c0 : s.runCompleted.c0 = s.c0 := rfl
@[simp] theorem State.runCompleted_c1 : s.runCompleted.c1 = s.c1 := rfl
@[simp] theorem State.runCompleted_start : s.runCompleted.start = s.start := rfl
@[simp] theorem State.runCompleted_len : s.runCompleted.len = s.len := rfl
@[simp] theorem State.runCompleted_idx : s.runCompleted.idx = s.idx := rfl
@[simp] theorem State.runCompleted_phase : s.runCompleted.phase = .check := rfl
@[simp] theorem State.runCompleted_port : s.runCompleted.port = s.port := rfl
@[simp] theorem State.runCompleted_host : s.runCompleted.host = s.host := rfl
@[simp] theorem State.runCompleted_source : s.runCompleted.source = s.source := rfl
@[simp] theorem State.runCompleted_dest : s.runCompleted.dest = s.dest := rfl
@[simp] theorem State.runCompleted_trace : s.runCompleted.trace = s.trace := rfl

/-! `State.commandDone` -/
@[simp] theorem State.commandDone_ring : s.commandDone.ring = s.ring := rfl
@[simp] theorem State.commandDone_wpos : s.commandDone.wpos = s.wpos := rfl
@[simp] theorem State.commandDone_stage : s.commandDone.stage = s.stage := rfl
@[simp] theorem State.commandDone_fill : s.commandDone.fill = s.fill := rfl
@[simp] theorem State.commandDone_rd : s.commandDone.rd = s.rd := rfl
@[simp] theorem State.commandDone_valid : s.commandDone.valid = s.valid := rfl
@[simp] theorem State.commandDone_emitted : s.commandDone.emitted = s.emitted := rfl
@[simp] theorem State.commandDone_n : s.commandDone.n = s.n := rfl
@[simp] theorem State.commandDone_filled : s.commandDone.filled = s.filled := rfl
@[simp] theorem State.commandDone_bmp : s.commandDone.bmp = s.bmp := rfl
@[simp] theorem State.commandDone_bit : s.commandDone.bit = s.bit + 1#4 := rfl
@[simp] theorem State.commandDone_c0 : s.commandDone.c0 = s.c0 := rfl
@[simp] theorem State.commandDone_c1 : s.commandDone.c1 = s.c1 := rfl
@[simp] theorem State.commandDone_start : s.commandDone.start = s.start := rfl
@[simp] theorem State.commandDone_len : s.commandDone.len = s.len := rfl
@[simp] theorem State.commandDone_idx : s.commandDone.idx = s.idx := rfl
@[simp] theorem State.commandDone_phase : s.commandDone.phase = .cmd := rfl
@[simp] theorem State.commandDone_port : s.commandDone.port = s.port := rfl
@[simp] theorem State.commandDone_host : s.commandDone.host = s.host := rfl
@[simp] theorem State.commandDone_source : s.commandDone.source = s.source := rfl
@[simp] theorem State.commandDone_dest : s.commandDone.dest = s.dest := rfl
@[simp] theorem State.commandDone_trace : s.commandDone.trace = s.trace := rfl

/-! Reads of a byte depend on their own memory only. -/

theorem State.ringRead_congr (s t : State) (h : s.ring = t.ring) (a : RingIndex) : s.ringRead a = t.ringRead a := by
  simp [State.ringRead, h]

theorem State.stageRead_congr (s t : State) (h : s.stage = t.stage) (k : Nat) : s.stageRead k = t.stageRead k := by
  simp [State.stageRead, h]

theorem State.destRead_congr (s t : State) (h : s.dest = t.dest) (j : Nat) : s.destRead j = t.destRead j := by
  simp [State.destRead, h]

end Sys2Proof.Machine
end

