-- ==== Sys2Proof/Laws/Ops.lean ====
section
/-! SUPPORT. What each shared operation can do, said once: sequencing, `EMIT`, the drain of one byte, the reads after a
write, and the canonical forms they keep. -/

namespace Sys2Proof.Machine

variable {s t : State} {f : State → Host.Outcome State Fault Refusal}

@[simp] theorem andThen_next : andThen (.next s) f = f s := rfl
@[simp] theorem andThen_fault (r : Fault) : andThen (.fault r) f = .fault r := rfl
@[simp] theorem andThen_refused (r : Refusal) : andThen (.refused r) f = .refused r := rfl

/-- A sequence answers a next state only through one of its first part. -/
theorem andThen_eq_next {o : Host.Outcome State Fault Refusal} (h : andThen o f = .next t) :
    ∃ u, o = .next u ∧ f u = .next t := by
  cases o with
  | next u => exact ⟨u, rfl, h⟩
  | fault r => cases h
  | refused r => cases h

theorem andThen_assoc (o : Host.Outcome State Fault Refusal) (f g : State → Host.Outcome State Fault Refusal) :
    andThen (andThen o f) g = andThen o fun u => andThen (f u) g := by cases o <;> rfl

/-- `EMIT` with room in `STAGE` (R130, R131). -/
theorem State.emit_eq (b : Byte) (h : s.fill.toNat < 144) : s.emit b = .next (s.emitByte b) := if_pos h

/-- `EMIT` without room. -/
theorem State.emit_full (b : Byte) (h : ¬ s.fill.toNat < 144) : s.emit b = .fault .stageIndex := if_neg h

/-- What `EMIT` can answer. -/
theorem State.emit_cases (s : State) (b : Byte) :
    (s.fill.toNat < 144 ∧ s.emit b = .next (s.emitByte b)) ∨ (¬ s.fill.toNat < 144 ∧ s.emit b = .fault .stageIndex) := by
  by_cases h : s.fill.toNat < 144
  · exact .inl ⟨h, s.emit_eq b h⟩
  · exact .inr ⟨h, s.emit_full b h⟩

theorem State.emit_next {b : Byte} (h : s.emit b = .next t) : s.fill.toNat < 144 ∧ t = s.emitByte b := by
  obtain ⟨hf, he⟩ | ⟨hf, he⟩ := s.emit_cases b <;> rw [he] at h <;> cases h
  exact ⟨hf, rfl⟩

theorem State.deliver_eq (h : s.rd.toNat < 144) : s.deliver = .next s.deliverByte := if_pos h

theorem State.deliver_next (h : s.deliver = .next t) : s.rd.toNat < 144 ∧ t = s.deliverByte := by
  unfold State.deliver at h
  split at h
  · cases h; exact ⟨‹_›, rfl⟩
  · cases h

/-- `FILL + 1` does not leave its range (R132). -/
theorem State.emitByte_fill_toNat (b : Byte) (h : s.fill.toNat < 144) :
    (s.emitByte b).fill.toNat = s.fill.toNat + 1 := by
  simp only [State.emitByte_fill, BitVec.toNat_add, BitVec.toNat_ofNat]; omega

/-- `WPOS + 1` is modulo 4096 (R132). -/
theorem State.emitByte_wpos_toNat (s : State) (b : Byte) :
    (s.emitByte b).wpos.toNat = (s.wpos.toNat + 1) % 4096 := by
  simp [BitVec.toNat_add]

/-- `RING` after an `EMIT`: the byte at the old cursor, every other byte as before (R130). -/
theorem State.ringRead_emitByte (s : State) (b : Byte) (a : RingIndex) :
    (s.emitByte b).ringRead a = if s.wpos = a then b else s.ringRead a := by
  simp only [State.ringRead, State.emitByte_ring, Memory.read_write, BitVec.toNat_inj]

/-- `STAGE` after an `EMIT`: the byte at the old fill length, every other byte as before (R130). -/
theorem State.stageRead_emitByte (s : State) (b : Byte) (k : Nat) :
    (s.emitByte b).stageRead k = if s.fill.toNat = k then b else s.stageRead k := by
  simp only [State.stageRead, State.emitByte_stage, Memory.read_write]

/-- The destination after a write (R64). -/
theorem State.destRead_destWrite (s : State) (j : Nat) (v : Byte) (i : Nat) :
    (s.destWrite j v).destRead i = if j = i then some v else s.destRead i := by
  simp only [State.destRead, State.destWrite_dest, Memory.lookup_write_none]

theorem State.destRead_deliverByte (s : State) (i : Nat) :
    s.deliverByte.destRead i = if s.filled = i then some (s.stageRead s.rd.toNat) else s.destRead i := by
  simp only [State.destRead, State.deliverByte_dest, Memory.lookup_write_none]

@[simp] theorem State.ringRead_initialised (s : State) (a : RingIndex) : s.initialised.ringRead a = 0x20#8 := rfl

/-- An `EMIT` keeps the canonical form of `RING`. -/
theorem State.ringWf_emitByte (b : Byte) (h : s.ring.wf (some Config.ringUnlisted) Config.ringSize = true) :
    (s.emitByte b).ring.wf (some Config.ringUnlisted) Config.ringSize = true :=
  Memory.wf_write _ _ _ _ _ s.wpos.isLt h

/-- An `EMIT` keeps the canonical form of `STAGE`. -/
theorem State.stageWf_emitByte (b : Byte) (hf : s.fill.toNat < 144)
    (h : s.stage.wf (some Config.stageUnlisted) Config.stageCap = true) :
    (s.emitByte b).stage.wf (some Config.stageUnlisted) Config.stageCap = true :=
  Memory.wf_write _ _ _ _ _ hf h

/-- A destination write below N keeps the canonical form of the destination. -/
theorem State.destWf_destWrite (j : Nat) (v : Byte) (hj : j < s.n) (h : s.dest.wf none s.n = true) :
    (s.destWrite j v).dest.wf none s.n = true :=
  Memory.wf_write _ _ _ _ _ hj h

end Sys2Proof.Machine
end

