-- ==== Sys2Proof/Laws/Step.lean ====
section
/-! SUPPORT. Everything a step can do, said once: `step_cases` splits a step that answers a next state into the transitions
of R211 to R221, each with its guard and its next state written out; and the outcomes of each meaning. -/

namespace Sys2Proof.Machine

/-! ### The meanings -/

theorem exec_bmp (f : Byte) (s : State) : exec (.bmp f) s = .next { s with bmp := f, bit := 0#4, phase := .cmd } := rfl

theorem exec_lit (d : Byte) (s : State) (h : s.fill.toNat < 144) :
    exec (.lit d) s = .next (s.emitByte d).commandDone := by
  simp only [exec, execLit, s.emit_eq d h, andThen_next]

theorem exec_lit_full (d : Byte) (s : State) (h : ¬ s.fill.toNat < 144) : exec (.lit d) s = .fault .stageIndex := by
  simp only [exec, execLit, s.emit_full d h, andThen_fault]

theorem exec_cpy (start : RingIndex) (len : CopyCount) (s : State) :
    exec (.cpy start len) s =
      .next
        { s with
          c0 := copyByte0 start, c1 := copyByte1 start len, start := start, len := len, idx := 0#5, phase := .copy } := rfl

theorem exec_init (s : State) (h : s.phase = .idle) : exec .init s = .next (s.initialised.record .initDone) := by
  simp [exec, execInit, h]

theorem exec_read (n : Nat) (s : State) (h : s.phase = .idle) (hv : s.valid = true) :
    exec (.read n) s = .next { s.readStarted n with phase := .loop } := by
  simp [exec, execRead, h, hv]

theorem exec_read_uninitialised (n : Nat) (s : State) (h : s.phase = .idle) (hv : s.valid = false) :
    exec (.read n) s = .refused .readBeforeInit := by
  simp [exec, execRead, h, hv]

theorem exec_init_busy (s : State) (h : s.phase ≠ .idle) : exec .init s = .refused .busy := by
  simp [exec, execInit, h]

theorem exec_read_busy (n : Nat) (s : State) (h : s.phase ≠ .idle) : exec (.read n) s = .refused .busy := by
  simp [exec, execRead, h]

/-! ### The step -/

theorem step_of_port_none {s : State} (h : s.port = none) : step s = stepPhase s := by simp [step, h]

theorem step_of_port {s : State} {w : HostWord} (h : s.port = some w) :
    step s = exec (decodeHost w) { s with port := none } := by
  simp [step, h, takeRequest, runCode, decodeHost]

/-- The transitions of the machine (R211 to R221), one constructor for each, with the next state written out. -/
inductive Transition (s : State) : State → Prop where
  | init (w : HostWord) (hp : s.port = some w) (ho : w.op = 0#1) (hi : s.phase = .idle) :
      Transition s (({ s with port := none } : State).initialised.record .initDone)
  | read (w : HostWord) (hp : s.port = some w) (ho : w.op ≠ 0#1) (hi : s.phase = .idle) (hv : s.valid = true) :
      Transition s { s with port := none, n := w.n, filled := 0, dest := [], phase := .loop }
  | hold (hp : s.port = none) (hi : s.phase = .idle) (hh : s.host = []) : Transition s s
  | request (w : HostWord) (rest : List HostInput) (hp : s.port = none) (hi : s.phase = .idle)
      (hh : s.host = .request w :: rest) : Transition s { s with port := some w, host := rest }
  | attach (src : Source) (rest : List HostInput) (hp : s.port = none) (hi : s.phase = .idle)
      (hh : s.host = .attach src :: rest) : Transition s { s with source := src, host := rest }
  | loopOn (hp : s.port = none) (hi : s.phase = .loop) (hr : s.filled < s.n) : Transition s { s with phase := .drain }
  | loopEnd (hp : s.port = none) (hi : s.phase = .loop) (hr : ¬ s.filled < s.n) : Transition s { s with phase := .ret }
  | drainByte (hp : s.port = none) (hi : s.phase = .drain) (hs : s.rd < s.fill) (hr : s.filled < s.n)
      (hc : s.rd.toNat < 144) : Transition s s.deliverByte
  | drainRun (hp : s.port = none) (hi : s.phase = .drain) (he : s.rd = s.fill) :
      Transition s { s with fill := 0#8, phase := .bmpf }
  | drainFull (hp : s.port = none) (hi : s.phase = .drain) (hs : ¬ (s.rd < s.fill ∧ s.filled < s.n)) (he : s.rd ≠ s.fill) :
      Transition s { s with phase := .check }
  | pullBmp (hp : s.port = none) (hi : s.phase = .bmpf) : Transition s (s.pullIssued .xBmp)
  | runDone (hp : s.port = none) (hi : s.phase = .cmd) (hb : s.bit.toNat = 8) : Transition s s.runCompleted
  | pullLit (hp : s.port = none) (hi : s.phase = .cmd) (hb : s.bit.toNat < 8) (hl : s.literalNext = true) :
      Transition s (s.pullIssued .xLit)
  | pullCpy (hp : s.port = none) (hi : s.phase = .cmd) (hb : s.bit.toNat < 8) (hl : s.literalNext = false) :
      Transition s (s.pullIssued .xCpy)
  | abort (p : PullPoint) (src : Source) (hp : s.port = none) (hi : s.phase = .wait p)
      (ha : s.source.pull p.count = some (.fail, src)) : Transition s (s.answered .fail src).exhausted
  | gotBmp (f : Byte) (src : Source) (hp : s.port = none) (hi : s.phase = .wait .xBmp)
      (ha : s.source.pull 1 = some (.ok [f], src)) :
      Transition s { s.answered (.ok [f]) src with bmp := f, bit := 0#4, phase := .cmd }
  | gotLit (d : Byte) (src : Source) (hp : s.port = none) (hi : s.phase = .wait .xLit)
      (ha : s.source.pull 1 = some (.ok [d], src)) (hc : s.fill.toNat < 144) :
      Transition s ((s.answered (.ok [d]) src).emitByte d).commandDone
  | gotCpy (c0 c1 : Byte) (src : Source) (hp : s.port = none) (hi : s.phase = .wait .xCpy)
      (ha : s.source.pull 2 = some (.ok [c0, c1], src)) :
      Transition s
        { s.answered (.ok [c0, c1]) src with
          c0 := c0, c1 := c1, start := copyStart c0 c1, len := copyLen c1, idx := 0#5, phase := .copy }
  | copyByte (hp : s.port = none) (hi : s.phase = .copy) (hx : s.idx < s.len) (hc : s.fill.toNat < 144) :
      Transition s { s.emitByte s.copySource with idx := s.idx + 1#5 }
  | copyEnd (hp : s.port = none) (hi : s.phase = .copy) (hx : s.idx = s.len) : Transition s s.commandDone
  | checkEnd (hp : s.port = none) (hi : s.phase = .check) (hf : s.fill = 0#8) : Transition s { s with phase := .ret }
  | checkOn (hp : s.port = none) (hi : s.phase = .check) (hf : s.fill ≠ 0#8) : Transition s { s with phase := .loop }
  | ret (hp : s.port = none) (hi : s.phase = .ret) : Transition s s.readReturned

/-- A step that answers a next state is one of the transitions. -/
theorem step_cases {s t : State} (h : step s = .next t) : Transition s t := by
  cases hp : s.port with
  | some w =>
    rw [step_of_port hp] at h
    unfold decodeHost at h
    by_cases hi : s.phase = .idle
    · split at h
      · rw [exec_init { s with port := none } hi] at h; cases h
        exact .init w hp ‹_› hi
      · cases hv : s.valid with
        | true =>
          rw [exec_read w.n { s with port := none } hi hv] at h; cases h
          exact .read w hp ‹_› hi hv
        | false => rw [exec_read_uninitialised w.n { s with port := none } hi hv] at h; cases h
    · split at h
      · rw [exec_init_busy { s with port := none } hi] at h; cases h
      · rw [exec_read_busy w.n { s with port := none } hi] at h; cases h
  | none =>
    rw [step_of_port_none hp, stepPhase] at h
    split at h <;> rename_i hi
    · rw [stepIdle] at h
      split at h <;> rename_i hh <;> cases h
      · exact .hold hp hi hh
      · exact .request _ _ hp hi hh
      · exact .attach _ _ hp hi hh
    · rw [stepLoop] at h
      split at h <;> rename_i hr <;> cases h
      · exact .loopOn hp hi (by simpa [State.roomLeft] using hr)
      · exact .loopEnd hp hi (by simpa [State.roomLeft] using hr)
    · rw [stepDrain] at h
      simp only [State.staged, State.roomLeft, State.drained, Bool.and_eq_true, decide_eq_true_eq] at h
      split at h
      · rename_i hc
        obtain ⟨hlt, rfl⟩ := State.deliver_next h
        exact .drainByte hp hi hc.1 hc.2 hlt
      · rename_i hc
        split at h <;> cases h
        · exact .drainRun hp hi ‹_›
        · exact .drainFull hp hi hc ‹_›
    · cases h; exact .pullBmp hp hi
    · rw [stepCmd] at h
      split at h
      · cases h; exact .runDone hp hi ‹_›
      · split at h
        · split at h <;> cases h
          · exact .pullLit hp hi ‹_› ‹_›
          · exact .pullCpy hp hi ‹_› (by simpa using ‹¬ s.literalNext = true›)
        · cases h
    · rw [stepCopy] at h
      split at h
      · obtain ⟨u, hu, hn⟩ := andThen_eq_next h
        obtain ⟨hf, rfl⟩ := State.emit_next hu
        cases hn
        exact .copyByte hp hi ‹_› hf
      · split at h <;> cases h
        exact .copyEnd hp hi ‹_›
    · rw [stepCheck] at h
      split at h <;> rename_i hf <;> cases h
      · exact .checkEnd hp hi (by simpa [State.nothingProduced] using hf)
      · exact .checkOn hp hi (by simpa [State.nothingProduced] using hf)
    · cases h; exact .ret hp hi
    · rename_i p
      rw [stepWait] at h
      split at h
      · cases h
      · cases h; exact .abort p _ hp hi ‹_›
      · rename_i bytes src ha
        rw [runCode] at h
        split at h
        · rename_i i hd
          obtain ⟨f, rfl, rfl, rfl⟩ | ⟨d, rfl, rfl, rfl⟩ | ⟨c0, c1, rfl, rfl, rfl⟩ := decode_stream_ok hd
          · cases h; exact .gotBmp f src hp hi ha
          · by_cases hf : s.fill.toNat < 144
            · rw [exec_lit d (s.answered (.ok [d]) src) hf] at h; cases h
              exact .gotLit d src hp hi ha hf
            · rw [exec_lit_full d (s.answered (.ok [d]) src) hf] at h; cases h
          · rw [exec_cpy, (copyBytes_decoded c0 c1).1, (copyBytes_decoded c0 c1).2] at h
            cases h
            exact .gotCpy c0 c1 src hp hi ha
        · cases h

/-! ### Runs of steps -/

@[simp] theorem steps_zero (s : State) : steps 0 s = .next s := rfl
theorem steps_succ (k : Nat) (s : State) : steps (k + 1) s = andThen (step s) (steps k) := rfl

theorem steps_add (k m : Nat) (s : State) : steps (k + m) s = andThen (steps k s) (steps m) := by
  induction k generalizing s with
  | zero => simp
  | succ k ih =>
    rw [Nat.add_right_comm, steps_succ, steps_succ, andThen_assoc]
    congr 1
    funext u
    exact ih u

/-- A run of any machine, where its first step answers a next state. -/
theorem run_succ_of_next (M : Host.Core) (k : Nat) (s t : M.State) (h : M.step s = .next t) :
    M.run (k + 1) s = M.run k t := by
  simp only [Host.Core.run, h]

/-- A run of any machine, where its first step does not. -/
theorem run_succ_of_stop (M : Host.Core) (k : Nat) (s : M.State) (h : ∀ t, M.step s ≠ .next t) :
    M.run (k + 1) s = M.step s := by
  cases hs : M.step s with
  | next t => exact absurd hs (h t)
  | fault r => simp only [Host.Core.run, hs]
  | refused r => simp only [Host.Core.run, hs]

/-- The host's own run of the machine is the model's. -/
theorem core_run_eq_steps (k : Nat) (s : State) : Host.Core.run core k s = steps k s := by
  induction k generalizing s with
  | zero => rfl
  | succ k ih =>
    rw [steps_succ]
    cases ht : step s with
    | next t => exact (run_succ_of_next core k s t ht).trans (ih t)
    | fault r => exact (run_succ_of_stop core k s fun t h => by cases ht.symm.trans h).trans ht
    | refused r => exact (run_succ_of_stop core k s fun t h => by cases ht.symm.trans h).trans ht

end Sys2Proof.Machine
end

