-- ==== Sys2Proof/Laws/BigStep.lean ====
section
/-! SUPPORT. What the big-step operations can do, said once: a copy in closed form, one command of a run, a run, one
iteration of `READ`; and that none of them reads the phase or the copy registers. -/

namespace Sys2Proof.Machine

/-! ### BLOCKCOPY -/

/-- The state after iterations i, …, i + k - 1 of a copy, `EMIT` by `EMIT` (R133). -/
def State.copied (s : State) (start : RingIndex) : Nat → Nat → State
  | _, 0 => s
  | i, k + 1 => (s.emitByte (s.ringRead (copyIndexAt start i))).copied start (i + 1) k

/-- With room in `STAGE` a copy answers that state. -/
theorem blockCopyFrom_eq (start : RingIndex) (i k : Nat) (s : State) (h : s.fill.toNat + k ≤ 144) :
    blockCopyFrom start i k s = .next (s.copied start i k) := by
  induction k generalizing i s with
  | zero => rfl
  | succ k ih =>
    have hf : s.fill.toNat < 144 := by omega
    rw [blockCopyFrom, s.emit_eq _ hf, andThen_next, ih]
    · rfl
    · rw [s.emitByte_fill_toNat _ hf]; omega

/-- A copy that answers a next state had room for every byte. -/
theorem blockCopyFrom_next {start : RingIndex} {i k : Nat} {s t : State} (h : blockCopyFrom start i k s = .next t)
    (hs : s.fill.toNat ≤ 144) : s.fill.toNat + k ≤ 144 ∧ t = s.copied start i k := by
  induction k generalizing i s with
  | zero => cases h; exact ⟨hs, rfl⟩
  | succ k ih =>
    rw [blockCopyFrom] at h
    obtain ⟨u, hu, hr⟩ := andThen_eq_next h
    obtain ⟨hf, rfl⟩ := State.emit_next hu
    have hf' := s.emitByte_fill_toNat (s.ringRead (copyIndexAt start i)) hf
    have := ih hr (by omega)
    exact ⟨by omega, this.2⟩

/-- `FILL` after a copy (R133). -/
theorem State.copied_fill_toNat (s : State) (start : RingIndex) (i k : Nat) (h : s.fill.toNat + k ≤ 144) :
    (s.copied start i k).fill.toNat = s.fill.toNat + k := by
  induction k generalizing i s with
  | zero => rfl
  | succ k ih =>
    have hf := s.emitByte_fill_toNat (s.ringRead (copyIndexAt start i)) (by omega)
    rw [State.copied, ih _ _ (by omega)]; omega

/-- A copy writes only `RING`, `WPOS`, `STAGE`, `FILL` and the ghost (R41, R133). -/
theorem State.copied_frame (s : State) (start : RingIndex) (i k : Nat) :
    { s.copied start i k with
      ring := s.ring, wpos := s.wpos, stage := s.stage, fill := s.fill, emitted := s.emitted } = s := by
  induction k generalizing i s with
  | zero => rfl
  | succ k ih =>
    exact congrArg
      (fun u : State =>
        { u with ring := s.ring, wpos := s.wpos, stage := s.stage, fill := s.fill, emitted := s.emitted })
      (ih (s.emitByte (s.ringRead (copyIndexAt start i))) (i + 1))

@[simp] theorem State.copied_bit (s : State) (st : RingIndex) (i k : Nat) : (s.copied st i k).bit = s.bit :=
  (congrArg State.bit (s.copied_frame st i k) :)
@[simp] theorem State.copied_bmp (s : State) (st : RingIndex) (i k : Nat) : (s.copied st i k).bmp = s.bmp :=
  (congrArg State.bmp (s.copied_frame st i k) :)
@[simp] theorem State.copied_trace (s : State) (st : RingIndex) (i k : Nat) : (s.copied st i k).trace = s.trace :=
  (congrArg State.trace (s.copied_frame st i k) :)
@[simp] theorem State.copied_source (s : State) (st : RingIndex) (i k : Nat) : (s.copied st i k).source = s.source :=
  (congrArg State.source (s.copied_frame st i k) :)
@[simp] theorem State.copied_rd (s : State) (st : RingIndex) (i k : Nat) : (s.copied st i k).rd = s.rd :=
  (congrArg State.rd (s.copied_frame st i k) :)
@[simp] theorem State.copied_n (s : State) (st : RingIndex) (i k : Nat) : (s.copied st i k).n = s.n :=
  (congrArg State.n (s.copied_frame st i k) :)
@[simp] theorem State.copied_filled (s : State) (st : RingIndex) (i k : Nat) : (s.copied st i k).filled = s.filled :=
  (congrArg State.filled (s.copied_frame st i k) :)
@[simp] theorem State.copied_dest (s : State) (st : RingIndex) (i k : Nat) : (s.copied st i k).dest = s.dest :=
  (congrArg State.dest (s.copied_frame st i k) :)
@[simp] theorem State.copied_valid (s : State) (st : RingIndex) (i k : Nat) : (s.copied st i k).valid = s.valid :=
  (congrArg State.valid (s.copied_frame st i k) :)
@[simp] theorem State.copied_phase (s : State) (st : RingIndex) (i k : Nat) : (s.copied st i k).phase = s.phase :=
  (congrArg State.phase (s.copied_frame st i k) :)
@[simp] theorem State.copied_port (s : State) (st : RingIndex) (i k : Nat) : (s.copied st i k).port = s.port :=
  (congrArg State.port (s.copied_frame st i k) :)
@[simp] theorem State.copied_host (s : State) (st : RingIndex) (i k : Nat) : (s.copied st i k).host = s.host :=
  (congrArg State.host (s.copied_frame st i k) :)

/-! ### The operand of a copy, as `RUN` assembles it -/

theorem and_F0 (b : Byte) : b.toNat &&& 0xF0 = 16 * (b.toNat / 16) := by
  have h : b.toNat < 256 := b.isLt
  generalize b.toNat = n at h
  interval_cases n <;> rfl

/-- `((C1 & 0xF0) << 4) | C0` is the decoder's `START` (R96, R150). -/
theorem copyStart_formula (b0 b1 : Byte) :
    BitVec.ofNat 12 (((b1.toNat &&& 0xF0) <<< 4) ||| b0.toNat) = copyStart b0 b1 := by
  have h0 : b0.toNat < 2 ^ 8 := b0.isLt
  have h1 : b1.toNat < 256 := b1.isLt
  apply BitVec.eq_of_toNat_eq
  rw [BitVec.toNat_ofNat, copyStart_toNat, and_F0, Nat.shiftLeft_eq,
    show 16 * (b1.toNat / 16) * 2 ^ 4 = (b1.toNat / 16) <<< 8 by rw [Nat.shiftLeft_eq]; omega,
    ← Nat.shiftLeft_add_eq_or_of_lt h0, Nat.shiftLeft_eq]
  omega

/-- `(C1 & 0x0F) + 3` is the decoder's `LEN` (R96, R150). -/
theorem copyLen_formula (b1 : Byte) : (b1.toNat &&& 0x0F) + Config.threshold = (copyLen b1).toNat := by
  rw [copyLen_toNat, Nat.and_two_pow_sub_one_eq_mod b1.toNat 4]

/-! ### Pulls -/

theorem State.pullNow_eq_some {s t : State} {k : Nat} {a : Answer} (h : s.pullNow k = some (a, t)) :
    ∃ src, s.source.pull k = some (a, src) ∧ t = (s.record (.pull k)).answered a src := by
  unfold State.pullNow at h
  split at h
  · cases h
  · cases h; exact ⟨_, ‹_›, rfl⟩

theorem State.pullNow_of_none {s : State} {k : Nat} (h : s.source.pull k = none) : s.pullNow k = none := by
  simp [State.pullNow, h]

theorem State.pullNow_of_some {s : State} {k : Nat} {a : Answer} {src : Source} (h : s.source.pull k = some (a, src)) :
    s.pullNow k = some (a, (s.record (.pull k)).answered a src) := by
  simp [State.pullNow, h]

/-! ### RUN -/

/-- The ways the last `k + 1` commands of a run can end (R150, R157): the first of them fails its pull, or it executes and the
rest end. -/
inductive CommandsEnd (k : Nat) (s : State) : State → Prop where
  | noLiteral (src : Source) (hl : s.literalNext = true) (ha : s.source.pull 1 = some (.fail, src)) :
      CommandsEnd k s ((s.record (.pull 1)).answered .fail src)
  | noOperand (src : Source) (hl : s.literalNext = false) (ha : s.source.pull 2 = some (.fail, src)) :
      CommandsEnd k s ((s.record (.pull 2)).answered .fail src)
  | literal (b : Byte) (src : Source) (t : State) (hl : s.literalNext = true)
      (ha : s.source.pull 1 = some (.ok [b], src)) (hc : s.fill.toNat < 144)
      (hr : runCommands k { ((s.record (.pull 1)).answered (.ok [b]) src).emitByte b with bit := s.bit + 1#4 } = .next t) :
      CommandsEnd k s t
  | copy (b0 b1 : Byte) (src : Source) (u t : State) (hl : s.literalNext = false)
      (ha : s.source.pull 2 = some (.ok [b0, b1], src))
      (hb : blockCopy (copyStart b0 b1) (copyLen b1).toNat ((s.record (.pull 2)).answered (.ok [b0, b1]) src) = .next u)
      (hr : runCommands k { u with bit := u.bit + 1#4 } = .next t) : CommandsEnd k s t

theorem runCommands_cases {k : Nat} {s t : State} (h : runCommands (k + 1) s = .next t) : CommandsEnd k s t := by
  rw [runCommands] at h
  cases hl : s.literalNext with
  | true =>
    rw [if_pos hl] at h
    split at h <;> rename_i hq
    · cases h
    · obtain ⟨src, ha, rfl⟩ := State.pullNow_eq_some hq
      cases h; exact .noLiteral src hl ha
    · obtain ⟨src, ha, rfl⟩ := State.pullNow_eq_some hq
      obtain ⟨u, hu, hr⟩ := andThen_eq_next h
      obtain ⟨hf, rfl⟩ := State.emit_next hu
      exact .literal _ src t hl ha hf hr
    · cases h
  | false =>
    rw [if_neg (by simp [hl])] at h
    split at h <;> rename_i hq
    · cases h
    · obtain ⟨src, ha, rfl⟩ := State.pullNow_eq_some hq
      cases h; exact .noOperand src hl ha
    · obtain ⟨src, ha, rfl⟩ := State.pullNow_eq_some hq
      obtain ⟨u, hu, hr⟩ := andThen_eq_next h
      rw [copyStart_formula, copyLen_formula] at hu
      exact .copy _ _ src u t hl ha hu hr
    · cases h

/-- The ways a run can end (R150, R157). -/
theorem runRun_cases {s t : State} (h : runRun s = .next t) :
    (∃ src, s.source.pull 1 = some (.fail, src) ∧ t = (s.runStarted.record (.pull 1)).answered .fail src) ∨
    ∃ f src, s.source.pull 1 = some (.ok [f], src) ∧
      runCommands 8 { (s.runStarted.record (.pull 1)).answered (.ok [f]) src with bmp := f, bit := 0#4 } = .next t := by
  rw [runRun] at h
  split at h <;> rename_i hq
  · cases h
  · obtain ⟨src, ha, rfl⟩ := State.pullNow_eq_some hq
    cases h; exact .inl ⟨src, ha, rfl⟩
  · obtain ⟨src, ha, rfl⟩ := State.pullNow_eq_some hq
    exact .inr ⟨_, src, ha, h⟩
  · cases h

/-! ### READ -/

theorem readLoop_of_full {s : State} (fuel : Nat) (h : ¬ s.filled < s.n) : readLoop fuel s = .next s := by
  cases fuel with
  | zero => rfl
  | succ fuel => simp [readLoop, State.roomLeft, h]

theorem readLoop_of_room {s : State} (fuel : Nat) (h : s.filled < s.n) :
    readLoop (fuel + 1) s =
      andThen (refill s.drain) fun t => if t.fill = 0#8 then .next t else readLoop fuel t := by
  simp [readLoop, State.roomLeft, State.nothingProduced, h]

theorem refill_of_drained {s : State} (h : s.rd = s.fill) :
    refill s = andThen (runRun s) fun t => .next { t with rd := 0#8 } := by
  simp [refill, State.drained, h]

theorem refill_of_staged {s : State} (h : s.rd ≠ s.fill) : refill s = .next s := by
  simp [refill, State.drained, h]

end Sys2Proof.Machine
end

