-- ==== Sys2Proof/Laws/PerInstr.lean ====
section
/-! SUPPORT. Statements for all instructions, one lemma per constructor of Instr. -/

namespace Sys2Proof.Laws.EncodedLength

/-- The encoding of an instruction has the shape its format gives it: a host word for a host operation, and for a stream
command as many bytes as its pull asks for (R58, R91 to R95, R102). -/
def Statement (i : Instr) : Prop :=
  match encode i with
  | .host w => decodeHost w = i
  | .stream p bytes => bytes.length = p.count

theorem bmp (f : Byte) : Statement (.bmp f) := rfl

theorem lit (d : Byte) : Statement (.lit d) := rfl

theorem cpy (start : RingIndex) (len : CopyCount) : Statement (.cpy start len) := rfl

theorem init : Statement .init := rfl

theorem read (n : Nat) : Statement (.read n) := rfl

end Sys2Proof.Laws.EncodedLength
end

