-- ==== Sys2Proof/Tests/Slice0.lean ====
section
/-! SUPPORT. The model's own tests: ill-formed terms, words written out from the spec's formats, the spec's examples one step
at a time, and for every statement with hypotheses a concrete case that meets them. -/

namespace Sys2Proof.Machine

/-- The next state of an outcome, if it is one. -/
def nextOf : Host.Outcome State Fault Refusal → Option State
  | .next s => some s
  | .fault _ => none
  | .refused _ => none

/-- An initialised idle core. -/
def idleCore : State := { State.reset with valid := true }

/-- An initialised core in a phase, with a source. -/
def coreAt (p : Phase) (src : Source) : State := { idleCore with phase := p, source := src }

/-! ### Well-formedness: each check refuses an ill-formed term (R96: 3 to 18) -/

theorem test_copy_length_2_refused : (Instr.cpy 0#12 2#5).wellFormed = false := by decide
theorem test_copy_length_19_refused : (Instr.cpy 0#12 19#5).wellFormed = false := by decide
theorem test_copy_lengths_accepted : (Instr.cpy 0#12 3#5).wellFormed ∧ (Instr.cpy 4095#12 18#5).wellFormed := by decide

/-! ### Words written out from the formats -/

/-- R91: 0x01 selects a literal as command 0 and copies after it. -/
theorem test_decode_bmp : decode (.stream .xBmp [0b00000001#8]) = .ok (.bmp 0x01#8) := by decide
/-- R94 -/
theorem test_decode_lit : decode (.stream .xLit [0b01000001#8]) = .ok (.lit 0x41#8) := by decide
/-- V8: c0 = 34, c1 = 12: the high nibble of c1 is the top of START. -/
theorem test_decode_cpy : decode (.stream .xCpy [0b00110100#8, 0b00010010#8]) = .ok (.cpy 308#12 5#5) := by decide
/-- V8: all ones. -/
theorem test_decode_cpy_ones : decode (.stream .xCpy [0xFF#8, 0xFF#8]) = .ok (.cpy 4095#12 18#5) := by decide
/-- V8: c0 = AB, c1 = 0C; c0 = ED, c1 = F1. -/
theorem test_decode_cpy_more :
    decode (.stream .xCpy [0xAB#8, 0x0C#8]) = .ok (.cpy 171#12 15#5) ∧
    decode (.stream .xCpy [0xED#8, 0xF1#8]) = .ok (.cpy 4077#12 4#5) := by decide
/-- R102: op = 0 and op = 1. -/
theorem test_decode_host :
    decode (.host { op := 0#1, n := 7 }) = .ok .init ∧ decode (.host { op := 1#1, n := 7 }) = .ok (.read 7) := by decide
/-- Rejections by name. -/
theorem test_decode_rejects :
    decode (.stream .xCpy [0x00#8]) = .error .tooFewBytes ∧ decode (.stream .xLit [0x00#8, 0x00#8]) = .error .tooManyBytes := by
  decide
/-- R97: the three examples of the encoding direction. -/
theorem test_encode_cpy :
    encode (.cpy 4078#12 3#5) = .stream .xCpy [0xEE#8, 0xF0#8] ∧ encode (.cpy 0#12 18#5) = .stream .xCpy [0x00#8, 0x0F#8] ∧
    encode (.cpy 4095#12 18#5) = .stream .xCpy [0xFF#8, 0xFF#8] := by decide
/-- The rows of the opcode table as words (R106): LIT 1dddddddd, CPY 0SSSSnnnnssssssss with W = 0xF0EE, INIT 0, READ 1. -/
theorem test_table_words :
    decodeTableWord 16 0x141 = some (.lit 0x41#8) ∧ decodeTableWord 24 0xF0EE = some (.cpy 4078#12 3#5) ∧
    decodeTableWord 8 0 = some .init ∧ decodeTableWord 8 1 = some (.read 0) ∧ decodeTableWord 8 0xFF = some (.bmp 0xFF#8) := by
  decide
/-- R90: the run of V23 is cut short: CPY 4078,3, LIT 'A', and no byte for command 2. -/
theorem test_decode_run :
    decodeRun [0xFE#8, 0xEE#8, 0xF0#8, 0x41#8] = some (0xFE#8, [.cpy 4078#12 3#5, .lit 0x41#8], []) := by decide

/-! ### The spec's examples, one step each -/

/-- R120: after `INIT`, whatever was there. -/
theorem test_init_example :
    (nextOf (exec .init { idleCore with ring := [(0, 0x41#8)], wpos := 5#12, fill := 8#8, rd := 3#8 })).map
      (fun t => (t.ringRead 0#12, t.ringRead 4095#12, t.wpos, t.fill, t.rd)) =
      some (0x20#8, 0x20#8, 4078#12, 0#8, 0#8) := by decide
/-- V10: `INIT` leaves `STAGE` as it is. -/
theorem test_init_keeps_stage :
    (nextOf (exec .init { idleCore with stage := [(0, 0x41#8)], fill := 8#8 })).map (fun t => t.stageRead 0) =
      some 0x41#8 := by decide
/-- R153: `WPOS` = 4078, `FILL` = 0, operand 0x41. -/
theorem test_lit_example :
    (nextOf (exec (.lit 0x41#8) idleCore)).map (fun t => (t.stageRead 0, t.ringRead 4078#12, t.fill, t.wpos)) =
      some (0x41#8, 0x41#8, 1#8, 4079#12) := by decide
/-- R154: a literal at `WPOS` = 4095 leaves `WPOS` = 0; a filler byte is written over data. -/
theorem test_lit_wraps :
    (nextOf (exec (.lit 0x20#8) { idleCore with wpos := 4095#12, ring := [(4095, 0x41#8)] })).map
      (fun t => (t.ringRead 4095#12, t.wpos, t.ring)) = some (0x20#8, 0#12, []) := by decide
/-- R155: operand EE F0. -/
theorem test_cpy_example :
    (nextOf (exec (.cpy 4078#12 3#5) idleCore)).map (fun t => (t.c0, t.c1, t.start, t.len, t.idx, t.phase)) =
      some (0xEE#8, 0xF0#8, 0xFEE#12, 3#5, 0#5, .copy) := by decide
/-- V2 (R138): the first step of a copy with d = 1 repeats the byte before the cursor. -/
theorem test_copy_step_overlap :
    (nextOf (step { idleCore with
      phase := .copy, ring := [(4078, 0x41#8)], wpos := 4079#12, fill := 1#8, start := 4078#12, len := 3#5, idx := 0#5,
      emitted := [0x41#8] })).map (fun t => (t.ringRead 4079#12, t.wpos, t.fill, t.idx)) =
      some (0x41#8, 4080#12, 2#8, 1#5) := by decide
/-- R134: the read index wraps: start 4095, iteration 1 reads index 0. -/
theorem test_copy_index_wraps : copyIndexAt 4095#12 1 = 0#12 := by decide
/-- R151, R215. -/
theorem test_bmp_example :
    (nextOf (exec (.bmp 0x01#8) idleCore)).map (fun t => (t.bmp, t.bit, t.phase)) = some (0x01#8, 0#4, .cmd) := by decide
/-- R212. -/
theorem test_read_example :
    (nextOf (exec (.read 8) { idleCore with filled := 3, n := 3 })).map (fun t => (t.n, t.filled, t.phase)) =
      some (8, 0, .loop) := by decide
/-- R291. -/
theorem test_read_before_init : exec (.read 8) State.reset = .refused .readBeforeInit := rfl

/-! ### A table word placed where the next step fetches it -/

theorem test_fetch_lit :
    (nextOf (step (State.reset.withFetchWord 16 0x141))).map (fun t => (t.stageRead 0, t.bit, t.phase)) =
      some (0x41#8, 1#4, .cmd) := by decide
theorem test_fetch_cpy :
    (nextOf (step (State.reset.withFetchWord 24 0xF0EE))).map (fun t => (t.start, t.len, t.phase)) =
      some (4078#12, 3#5, .copy) := by decide
theorem test_fetch_bmp :
    (nextOf (step (State.reset.withFetchWord 8 0x55))).map (fun t => (t.bmp, t.phase)) = some (0x55#8, .cmd) := by decide
theorem test_fetch_host :
    (nextOf (step (State.reset.withFetchWord 8 0))).map (fun t => (t.valid, t.phase)) = some (true, .idle) ∧
    (nextOf (step (State.reset.withFetchWord 8 1))).map (fun t => (t.n, t.phase)) = some (0, .loop) := by decide

/-! ### Witnesses: the hypotheses of each statement are met together -/

theorem reset_history : State.reset.RingHistory :=
  ⟨by decide, fun j h1 h2 => absurd h2 (by simp [State.reset]; omega), fun _ _ => rfl⟩

/-- The invariant of an initialised core with empty memories, nothing staged and an empty destination, in a phase whose own
part holds. -/
theorem inv_of_fresh (s : State) (h1 : s.ring = []) (h2 : s.stage = []) (h3 : s.dest = []) (h4 : s.fill = 0#8)
    (h5 : s.rd = 0#8) (h6 : s.filled = 0) (h7 : s.valid = true) (h8 : s.PhaseInv) : s.Inv :=
  ⟨by rw [h1]; rfl, by rw [h2]; rfl, by rw [h3]; rfl, by simp [State.destRead, h3, h6], by rw [h4]; decide,
    by rw [h5]; decide, by omega, by simp [h7], h8⟩

theorem idleCore_inv : idleCore.Inv := inv_of_fresh _ rfl rfl rfl rfl rfl rfl rfl (.inr ⟨rfl, rfl⟩)

theorem witness_DecodeOfEncode : (Instr.cpy 4095#12 18#5).wellFormed = true := by decide

theorem witness_StreamDecodeIsTotalAndExact :
    [0xFF#8, (0xFF#8 : Byte)].length = PullPoint.xCpy.count ∧ [(0xFF#8 : Byte)].length < PullPoint.xCpy.count ∧
    PullPoint.xCpy.count < [0xFF#8, 0xFF#8, (0xFF#8 : Byte)].length := by decide

theorem witness_CopyOperandEncoding :
    3 ≤ (3#5 : CopyCount).toNat ∧ (18#5 : CopyCount).toNat ≤ 18 ∧ (3#5 : CopyCount).toNat ≤ 18 ∧
    3 ≤ (18#5 : CopyCount).toNat := by decide

/-- A complete run of nine bytes, with one byte after it. -/
theorem witness_RunLengthInStreamBytes :
    ∃ cmds, decodeRun (0xFF#8 :: [1#8, 2#8, 3#8, 4#8, 5#8, 6#8, 7#8, 8#8, 9#8]) = some (0xFF#8, cmds, [9#8]) ∧
      cmds.length = 8 := ⟨_, rfl, rfl⟩

theorem witness_StepRunsTheHostCommand :
    ∃ s w, s = { idleCore with port := some w } ∧ s.port = some w ∧ decode (.host w) = .ok (.read 8) :=
  ⟨_, { op := 1#1, n := 8 }, rfl, rfl, rfl⟩

theorem witness_StepRunsThePulledCommand :
    let s := coreAt (.wait .xCpy) (.stream [0xEE#8, 0xF0#8] 0 false)
    s.port = none ∧ s.phase = .wait .xCpy ∧
      s.source.pull PullPoint.xCpy.count = some (.ok [0xEE#8, 0xF0#8], .stream [0xEE#8, 0xF0#8] 2 false) ∧
      decode (.stream .xCpy [0xEE#8, 0xF0#8]) = .ok (.cpy 4078#12 3#5) := by decide

theorem witness_InitEffect : idleCore.phase = .idle := rfl

theorem witness_ReadRequest :
    (idleCore.phase = .idle ∧ idleCore.valid = true) ∧ (State.reset.phase = .idle ∧ State.reset.valid = false) ∧
      (coreAt .loop (.oracle [])).phase ≠ .idle := by decide

theorem witness_RequestOutsideIdleHasNoStep :
    let s := { coreAt .drain (.oracle []) with port := some { op := 0#1, n := 0 } }
    s.port = some { op := 0#1, n := 0 } ∧ s.phase ≠ .idle := by decide

theorem witness_ReadZeroDoesNothing :
    let s := { idleCore with fill := 8#8, rd := 3#8 }
    s.phase = .idle ∧ s.valid = true ∧ s.port = none := by decide

theorem witness_ReadAfterExhaustion :
    let s := coreAt .idle (.stream [] 0 false)
    s.phase = .idle ∧ s.valid = true ∧ s.port = none ∧ s.fill = 0#8 ∧ s.rd = 0#8 ∧ 0 < 1 ∧
      s.source.pull 1 = some (.fail, .stream [] 0 false) := by decide

theorem witness_LiteralEffect :
    ({ idleCore with fill := 143#8 } : State).fill.toNat ≤ 143 ∧
      143 < ({ idleCore with fill := 144#8 } : State).fill.toNat := by decide

theorem witness_CopyStarts : (Instr.cpy 0#12 3#5).wellFormed = true := by decide

theorem witness_CopyStepsAreBlockCopy :
    let s := { idleCore with fill := 126#8 }
    (Instr.cpy 4095#12 18#5).wellFormed = true ∧ s.port = none ∧ s.fill.toNat + (18#5 : CopyCount).toNat ≤ 144 := by decide

theorem witness_EmitDualWrite : ({ idleCore with fill := 143#8 } : State).fill.toNat ≤ 143 := by decide

theorem witness_BlockCopyWrites : ({ idleCore with fill := 126#8 } : State).fill.toNat + 18 ≤ 144 := by decide

/-- d = 1, the case of V2, and d = 0, the case of V16. -/
theorem witness_OverlappingCopyLaw :
    let s := { idleCore with ring := [(4078, 0x41#8)], wpos := 4079#12, fill := 1#8 }
    (∃ (v : State) (o : List Byte), s.fill.toNat + 3 ≤ 144 ∧ blockCopy 4078#12 3 s = .next v ∧ v.emitted = o.reverse ++ s.emitted ∧
      o.length = 3 ∧ 1 ≤ (s.wpos - 4078#12).toNat ∧ (s.wpos - 4078#12).toNat ≤ 2) ∧
    ∃ (v : State) (o : List Byte), blockCopy 4079#12 3 s = .next v ∧ v.emitted = o.reverse ++ s.emitted ∧ o.length = 3 ∧
      (s.wpos - 4079#12).toNat = 0 :=
  ⟨⟨_, [0x41#8, 0x41#8, 0x41#8], by decide, rfl, rfl, rfl, by decide, by decide⟩,
    ⟨_, [0x20#8, 0x20#8, 0x20#8], rfl, rfl, rfl, by decide⟩⟩

theorem witness_StreamSourcePull :
    1 + 2 ≤ [0x01#8, 0xEE#8, (0xF0#8 : Byte)].length ∧ [0x01#8, (0xEE#8 : Byte)].length < 1 + 2 := by decide

theorem witness_LoopCheckAndReturnSteps :
    let s := fun p => { coreAt p (.oracle []) with n := 1 }
    ((s .loop).phase = .loop ∧ (s .loop).filled < (s .loop).n ∧ (s .loop).port = none) ∧
    (∃ t : State, t = { s .loop with filled := 1 } ∧ t.phase = .loop ∧ ¬ t.filled < t.n) ∧
    ((s .check).phase = .check ∧ (s .check).fill.toNat = 0) ∧
    (∃ t : State, t = { s .check with fill := 144#8 } ∧ t.phase = .check ∧ t.fill.toNat ≠ 0) ∧ (s .ret).phase = .ret :=
  ⟨by decide, ⟨_, rfl, by decide, by decide⟩, by decide, ⟨_, rfl, by decide, by decide⟩, by decide⟩

theorem witness_DrainStep :
    let s := fun (r f : StageCount) (k : Nat) => { coreAt .drain (.oracle []) with rd := r, fill := f, n := 1, filled := k }
    (let t := s 143#8 144#8 0
     t.port = none ∧ t.phase = .drain ∧ t.rd.toNat < t.fill.toNat ∧ t.fill.toNat ≤ 144 ∧ t.filled < t.n) ∧
    (let t := s 144#8 144#8 1
     t.rd.toNat = t.fill.toNat ∧ t.fill.toNat ≤ 144) ∧
    (let t := s 143#8 144#8 1
     t.rd.toNat < t.fill.toNat ∧ t.filled = t.n) := by decide

theorem witness_BitmapFetchSteps :
    let s := fun src => coreAt .bmpf src
    ((s (.stream [] 0 false)).port = none ∧ (s (.stream [] 0 false)).phase = .bmpf ∧
      (s (.stream [] 0 false)).source.pull 1 = some (.fail, .stream [] 0 false)) ∧
    (s (.stream [0xFF#8] 0 false)).source.pull 1 = some (.ok [0xFF#8], .stream [0xFF#8] 1 false) := by decide

theorem witness_CommandDispatchSteps :
    let s := fun (b : CmdIndex) (src : Source) => { coreAt .cmd src with bit := b, bmp := 0x80#8, fill := 126#8 }
    (let t := s 8#4 (.oracle [])
     t.port = none ∧ t.phase = .cmd ∧ t.bit = 8#4) ∧
    (let t := s 7#4 (.oracle [.ok [0x41#8]])
     t.bit < 8#4 ∧ t.bmp.getLsbD t.bit.toNat = true ∧ t.fill.toNat ≤ 143 ∧
       t.source.pull 1 = some (.ok [0x41#8], .oracle [])) ∧
    (s 7#4 (.oracle [.fail])).source.pull 1 = some (.fail, .oracle []) ∧
    (let t := s 0#4 (.oracle [.ok [0xEE#8, 0xF0#8]])
     t.bit < 8#4 ∧ t.bmp.getLsbD t.bit.toNat = false ∧
       t.source.pull 2 = some (.ok [0xEE#8, 0xF0#8], .oracle [])) ∧
    (s 0#4 (.oracle [.fail])).source.pull 2 = some (.fail, .oracle []) := by decide

theorem witness_CopyStep :
    let s := fun (i : CopyCount) (f : StageCount) => { coreAt .copy (.oracle []) with idx := i, len := 18#5, fill := f }
    (let t := s 17#5 143#8
     t.port = none ∧ t.phase = .copy ∧ t.idx.toNat < t.len.toNat ∧ t.fill.toNat ≤ 143) ∧
    (s 18#5 144#8).idx = (s 18#5 144#8).len := by decide

theorem witness_ExhaustedEntry :
    let s := coreAt (.wait .xCpy) (.stream [0xEE#8] 0 false)
    s.port = none ∧ s.phase = .wait .xCpy ∧
      s.source.pull PullPoint.xCpy.count = some (.fail, .stream [0xEE#8] 0 false) := by decide

theorem witness_UnansweredPullHangs :
    let s := coreAt (.wait .xBmp) (.oracle [])
    s.port = none ∧ s.phase = .wait .xBmp ∧ s.source.pull PullPoint.xBmp.count = none := by decide

theorem witness_IdleHoldsItsState : idleCore.port = none ∧ idleCore.phase = .idle ∧ idleCore.host = [] := by decide

theorem witness_IdleTakesTheHostsInput :
    let s := fun h => { idleCore with host := [h] }
    (let t := s (.request { op := 1#1, n := 8 })
     t.port = none ∧ t.phase = .idle ∧ t.host = .request { op := 1#1, n := 8 } :: []) ∧
    (s (.attach (.oracle []))).host = .attach (.oracle []) :: [] := by decide

theorem witness_PullRequestSteps :
    let s := fun p b => { coreAt p (.oracle []) with bit := b, bmp := 0x80#8 }
    ((s .bmpf 0#4).port = none ∧ (s .bmpf 0#4).phase = .bmpf) ∧
    ((s .cmd 7#4).phase = .cmd ∧ (s .cmd 7#4).bit < 8#4 ∧ (s .cmd 7#4).bmp.getLsbD 7 = true) ∧
    ((s .cmd 0#4).phase = .cmd ∧ (s .cmd 0#4).bit < 8#4 ∧ (s .cmd 0#4).bmp.getLsbD 0 = false) := by decide

theorem witness_ValidIsSetByInitOnly :
    ∃ s t : State, s.valid = false ∧ step s = .next t ∧ t.valid = true :=
  ⟨{ State.reset with port := some { op := 0#1, n := 0 } }, _, rfl, rfl, rfl⟩

theorem witness_StepKeepsInvariant : ∃ s t : State, s.Inv ∧ s ≠ t ∧ step s = .next t :=
  ⟨{ idleCore with port := some { op := 1#1, n := 8 } }, _,
    inv_of_fresh _ rfl rfl rfl rfl rfl rfl rfl (.inr ⟨rfl, rfl⟩), by decide, rfl⟩

theorem witness_NoStepFaults : (coreAt .bmpf (.oracle [])).Inv := inv_of_fresh _ rfl rfl rfl rfl rfl rfl rfl rfl

/-- A state of each kind that `StopsOnlyForTheEnvironment` names: it goes on, it is busy, it has not been initialised, it
waits for ever, it has been answered with too few bytes. -/
theorem witness_StopsOnlyForTheEnvironment :
    (idleCore.Inv ∧ step idleCore = .next idleCore) ∧
    (∃ s : State, s.Inv ∧ step s = .refused .busy) ∧ (∃ s : State, step s = .refused .readBeforeInit) ∧
    (∃ s : State, s.Inv ∧ step s = .refused .pullUnanswered) ∧ ∃ s : State, s.Inv ∧ step s = .refused .sourceContract :=
  ⟨⟨idleCore_inv, rfl⟩,
    ⟨{ coreAt .bmpf (.oracle []) with port := some { op := 0#1, n := 0 } },
      inv_of_fresh _ rfl rfl rfl rfl rfl rfl rfl rfl, rfl⟩,
    ⟨{ State.reset with port := some { op := 1#1, n := 0 } }, rfl⟩,
    ⟨coreAt (.wait .xBmp) (.oracle []), inv_of_fresh _ rfl rfl rfl rfl rfl rfl rfl rfl, rfl⟩,
    ⟨coreAt (.wait .xBmp) (.oracle [.ok []]), inv_of_fresh _ rfl rfl rfl rfl rfl rfl rfl rfl, rfl⟩⟩

theorem witness_RingHistoryLaw :
    (∃ t, exec .init idleCore = .next t) ∧ ∃ s t : State, s.RingHistory ∧ step s = .next t :=
  ⟨⟨_, rfl⟩, ⟨State.reset, _, reset_history, rfl⟩⟩

theorem witness_StagedBytesAreTheLatest :
    ∃ s t : State, s.StageHistory ∧ step s = .next t ∧ t.fill = 1#8 :=
  ⟨coreAt (.wait .xLit) (.oracle [.ok [0x41#8]]), _, ⟨by decide, by decide⟩, rfl, rfl⟩

theorem witness_OnlyInitAndEmitWriteTheRing :
    ∃ s t : State, step s = .next t ∧ (∀ w, s.port = some w → w.op ≠ 0#1) ∧
      (s.port = none → s.phase ≠ .wait .xLit ∧ (s.phase = .copy → s.idx = s.len)) ∧ s.phase = .copy :=
  ⟨{ coreAt .copy (.oracle []) with idx := 18#5, len := 18#5 }, _, rfl, by simp [coreAt, idleCore, State.reset],
    by simp [coreAt], rfl⟩

theorem witness_SourceIsReadOnlyByThePull :
    ∃ s t : State, step s = .next t ∧ s.phase ≠ .idle ∧ t.source ≠ s.source :=
  ⟨coreAt (.wait .xBmp) (.oracle [.ok [0xFF#8]]), _, rfl, by decide, by decide⟩

theorem witness_OnePullOutstanding :
    ∃ s t : State, step s = .next t ∧
      (∀ k, s.trace.getLast? = some (.pull k) ↔ ∃ p, s.phase = .wait p ∧ p.count = k) ∧ ∃ p, t.phase = .wait p :=
  ⟨coreAt .bmpf (.oracle []), _, rfl, by simp [coreAt, idleCore, State.reset], ⟨.xBmp, rfl⟩⟩

/-- A step outside `DRAIN` with a cell written, the start of a `READ`, a byte delivered at index 143 of `STAGE`, and a drained
staging RAM. -/
theorem witness_DestinationIsWrittenByTheDrain :
    (∃ s t : State, step s = .next t ∧ s.phase ≠ .drain ∧ (∀ w, s.port = some w → w.op = 0#1) ∧ t.dest = [(0, 0x42#8)]) ∧
    (∃ s t : State, step s = .next t ∧ s.phase ≠ .drain ∧ (∃ w, s.port = some w ∧ w.op ≠ 0#1) ∧ s.dest ≠ []) ∧
    (∃ s t : State, step s = .next t ∧ s.phase = .drain ∧ s.filled = 1 ∧ t.dest = [(0, 0x42#8), (1, 0x41#8)]) ∧
    ∃ s t : State, step s = .next t ∧ s.phase = .drain ∧ s.rd = s.fill ∧ t.trace = s.trace :=
  ⟨⟨{ coreAt .check (.oracle []) with dest := [(0, 0x42#8)] }, _, rfl, by decide, by simp [coreAt, idleCore, State.reset], rfl⟩,
    ⟨{ idleCore with dest := [(0, 0x42#8)], port := some { op := 1#1, n := 8 } }, _, rfl, by decide, ⟨_, rfl, by decide⟩,
      by decide⟩,
    ⟨{ coreAt .drain (.oracle []) with
        stage := [(143, 0x41#8)], fill := 144#8, rd := 143#8, n := 2, filled := 1, dest := [(0, 0x42#8)] },
      _, rfl, rfl, rfl, rfl⟩,
    ⟨coreAt .drain (.oracle []), _, rfl, rfl, rfl, rfl⟩⟩

/-- V4's first run is aborted at a literal with one byte staged; V1's first run is complete. -/
theorem witness_runs :
    (∃ t, runRun (sessionStart [0xFF#8, 0x41#8] false) = .next t ∧ t.fill = 1#8 ∧
      t.trace.getLast? = some (.answer .fail)) ∧
    ∃ t, runRun (sessionStart [0xFF#8, 0x41#8, 0x42#8, 0x43#8, 0x44#8, 0x45#8, 0x46#8, 0x47#8, 0x48#8] false) = .next t ∧
      t.fill = 8#8 ∧ t.trace.getLast? ≠ some (.answer .fail) :=
  ⟨⟨_, rfl, rfl, rfl⟩, ⟨_, rfl, rfl, by decide⟩⟩

theorem witness_RunNeverOverflowsStaging : ∃ s t, runRun s = .next t ∧ t.fill.toNat ≤ 144 :=
  let ⟨⟨t, h, hf, _⟩, _⟩ := witness_runs
  ⟨_, t, h, by rw [hf]; decide⟩

theorem witness_RunEndsInOneOfTwoWays : ∃ s t, runRun s = .next t :=
  let ⟨⟨t, h, _⟩, _⟩ := witness_runs
  ⟨_, t, h⟩

theorem witness_PullsOfARun : ∃ s t, runRun s = .next t ∧ t.trace.getLast? ≠ some (.answer .fail) :=
  let ⟨_, ⟨t, h, _, hl⟩⟩ := witness_runs
  ⟨_, t, h, hl⟩

/-- V4: `READ(10)` returns one byte. -/
theorem witness_ReadResult :
    ∃ s t : State, s.Inv ∧ s.phase = .idle ∧ s.valid = true ∧ bigRead 10 s = .next t ∧ t.deliveredBytes = [0x41#8] :=
  ⟨sessionStart [0xFF#8, 0x41#8] false, _, inv_of_fresh _ rfl rfl rfl rfl rfl rfl rfl (.inr ⟨rfl, rfl⟩), rfl, rfl, rfl, rfl⟩

theorem witness_SequencerAgreesWithRead :
    idleCore.Inv ∧ idleCore.phase = .idle ∧ idleCore.valid = true ∧ idleCore.port = none := ⟨idleCore_inv, rfl, rfl, rfl⟩

theorem witness_ReadTerminates :
    ∃ t, idleCore.Inv ∧ idleCore.port = none ∧ exec (.read 8) idleCore = .next t := ⟨_, idleCore_inv, rfl, rfl⟩

theorem witness_LiteralOnlyStreams :
    (∀ b ∈ [[1#8, 2#8, 3#8, 4#8, 5#8, 6#8, 7#8, (8#8 : Byte)]], b.length = 8) ∧
      [1#8, 2#8, 3#8, 4#8, 5#8, 6#8, 7#8, (8#8 : Byte)].length ≤ 8 := by decide

theorem witness_InitForgetsThePast :
    ∃ s s' : State, s.source = s'.source ∧ s.trace = s'.trace ∧ s.stage ≠ s'.stage ∧ s.ring ≠ s'.ring :=
  ⟨idleCore, { idleCore with ring := [(0, 0x41#8)], stage := [(0, 0x41#8)] }, rfl, rfl, by decide, by decide⟩

/-- V4 and V27: sessions that end short. -/
theorem witness_ChunkingIndependence :
    (readSession [10, 10] (sessionStart [0xFF#8, 0x41#8] false)).map Prod.fst = some [[0x41#8], []] ∧
    (readSession [1, 5] (sessionStart [0x01#8, 0x41#8, 0xEE#8] true)).map Prod.fst = some [[0x41#8], []] := by decide

end Sys2Proof.Machine
end

/-! SUPPORT. The request half of a pull: the steps of `BMPF` and `CMD` that issue one (R215, R216, R221), and the
settlement of O31. -/

namespace Sys2Proof.Machine

/-- In `BMPF` the bitmap's pull is issued. -/
theorem step_of_bmpf {s : State} (hp : s.port = none) (hi : s.phase = .bmpf) : step s = .next (s.pullIssued .xBmp) := by
  rw [step_of_port_none hp, stepPhase, hi, stepBmpf]

/-- The pull point of command `BIT`: a literal's where `BMP[BIT]` is 1, a copy's where it is 0 (R90, R91). -/
def State.commandPoint (s : State) : PullPoint := if s.literalNext then .xLit else .xCpy

theorem State.commandPoint_of_literal {s : State} (h : s.literalNext = true) : s.commandPoint = .xLit := if_pos h

theorem State.commandPoint_of_copy {s : State} (h : s.literalNext = false) : s.commandPoint = .xCpy := by
  simp [State.commandPoint, h]

/-- In `CMD`, with commands of the run left, the operand pull of command `BIT` is issued. -/
theorem step_of_cmd {s : State} (hp : s.port = none) (hi : s.phase = .cmd) (hb : s.bit < 8#4) :
    step s = .next (s.pullIssued s.commandPoint) := by
  have hlt : s.bit.toNat < 8 := hb
  rw [step_of_port_none hp, stepPhase, hi, stepCmd, if_neg hlt.ne, if_pos hlt]
  cases hl : s.literalNext with
  | true => rw [State.commandPoint_of_literal hl, if_pos rfl]
  | false => rw [State.commandPoint_of_copy hl, if_neg Bool.false_ne_true]

/-- Settles O31: one clause for each pull point, `pullIssued` written out in each. -/
theorem pullRequestSteps : Obligations.PullRequestSteps := by
  intro s hp
  refine ⟨fun hi => ?_, fun hi hb hl => ?_, fun hi hb hl => ?_⟩
  · rw [step_of_bmpf hp hi]; rfl
  · rw [step_of_cmd hp hi hb, State.commandPoint_of_literal hl]; rfl
  · rw [step_of_cmd hp hi hb, State.commandPoint_of_copy hl]; rfl

end Sys2Proof.Machine

/-! SUPPORT. The invariant of the machine: what it says in each phase, that every step keeps it, and that no step faults
under it; the settlements of O35 and O36. -/

namespace Sys2Proof.Machine

section Invariant

variable {s : State}

/-! ### The invariant, phase by phase -/

theorem State.Inv.settled_of_idle (h : s.Inv) (hi : s.phase = .idle) : s.Settled := by
  simpa only [State.PhaseInv, hi] using h.phaseInv

theorem State.Inv.settled_of_loop (h : s.Inv) (hi : s.phase = .loop) : s.Settled := by
  simpa only [State.PhaseInv, hi] using h.phaseInv

theorem State.Inv.settled_of_check (h : s.Inv) (hi : s.phase = .check) : s.Settled := by
  simpa only [State.PhaseInv, hi] using h.phaseInv

theorem State.Inv.settled_of_ret (h : s.Inv) (hi : s.phase = .ret) : s.Settled := by
  have hr := h.phaseInv
  simp only [State.PhaseInv, hi] at hr
  exact hr.1

theorem State.Inv.rd_le_of_drain (h : s.Inv) (hi : s.phase = .drain) : s.rd ≤ s.fill := by
  simpa only [State.PhaseInv, hi] using h.phaseInv

theorem State.Inv.fill_of_bmpf (h : s.Inv) (hi : s.phase = .bmpf) : s.fill = 0#8 := by
  simpa only [State.PhaseInv, hi] using h.phaseInv

theorem State.Inv.fill_of_waitBmp (h : s.Inv) (hi : s.phase = .wait .xBmp) : s.fill = 0#8 := by
  simpa only [State.PhaseInv, hi] using h.phaseInv

theorem State.Inv.of_cmd (h : s.Inv) (hi : s.phase = .cmd) :
    s.bit.toNat ≤ 8 ∧ s.fill.toNat ≤ 18 * s.bit.toNat := by
  simpa only [State.PhaseInv, hi] using h.phaseInv

theorem State.Inv.of_waitLit (h : s.Inv) (hi : s.phase = .wait .xLit) :
    s.bit.toNat < 8 ∧ s.literalNext = true ∧ s.fill.toNat ≤ 18 * s.bit.toNat := by
  simpa only [State.PhaseInv, hi] using h.phaseInv

theorem State.Inv.of_waitCpy (h : s.Inv) (hi : s.phase = .wait .xCpy) :
    s.bit.toNat < 8 ∧ s.literalNext = false ∧ s.fill.toNat ≤ 18 * s.bit.toNat := by
  simpa only [State.PhaseInv, hi] using h.phaseInv

theorem State.Inv.of_copy (h : s.Inv) (hi : s.phase = .copy) :
    s.bit.toNat < 8 ∧ s.literalNext = false ∧ s.start = copyStart s.c0 s.c1 ∧ s.len = copyLen s.c1 ∧
      s.idx ≤ s.len ∧ s.fill.toNat ≤ 18 * s.bit.toNat + s.idx.toNat := by
  simpa only [State.PhaseInv, hi] using h.phaseInv

/-- The length of the copy in progress is at most 18 (R156). -/
theorem State.Inv.len_le_of_copy (h : s.Inv) (hi : s.phase = .copy) : s.len.toNat ≤ 18 := by
  obtain ⟨-, -, -, hlen, -, -⟩ := h.of_copy hi
  rw [hlen]
  exact (copyLen_range s.c1).2

/-- A core in an operation has been initialised, so the part about `VALID` asks nothing of the phase `q` that comes next
(R291). -/
theorem State.Inv.started (h : s.Inv) {p q : Phase} (hi : s.phase = p) (hp : p ≠ .idle) : s.valid = false → q = .idle :=
  fun hv => absurd (hi.symm.trans (h.onlyAfterInit hv)) hp

/-- Nothing unread and nothing half drained, once `RD` is back at 0 (R28). -/
theorem State.settled_of_rd_zero (hr : s.rd = 0#8) : s.Settled := by
  by_cases hf : s.fill = 0#8
  · exact .inr ⟨hf, hr⟩
  · refine .inl ?_
    rw [hr]
    bv_omega

/-- Settled cursors are in order (R27). -/
theorem State.Settled.rd_le_fill (h : s.Settled) : s.rd ≤ s.fill := by
  rcases h with hlt | ⟨hf, hr⟩
  · bv_omega
  · rw [hf, hr]; exact BitVec.le_refl _

/-! ### The steps that write a memory -/

/-- An `EMIT` leaves `FILL` within its bound (R27, R132). -/
theorem State.emitByte_fill_le (b : Byte) (hc : s.fill.toNat < 144) : (s.emitByte b).fill.toNat ≤ 144 := by
  rw [State.emitByte_fill_toNat b hc]
  exact hc

/-- The delivery of one byte keeps the invariant (R183, R65). -/
theorem State.Inv.deliverByte (h : s.Inv) (hi : s.phase = .drain) (hs : s.rd < s.fill) (hr : s.filled < s.n) :
    s.deliverByte.Inv := by
  have hle : (s.rd + 1#8).toNat ≤ s.fill.toNat := by bv_omega
  exact
    { h with
      destWf := State.destWf_destWrite s.filled (s.stageRead s.rd.toNat) hr h.destWf
      destWritten := fun j => by
        rw [State.destRead_deliverByte, State.deliverByte_filled]
        have hj := h.destWritten j
        split
        · simp only [Option.isSome_some, true_iff]; omega
        · rw [hj]; omega
      rdCap := hle.trans h.fillCap
      filledLe := hr
      onlyAfterInit := h.started hi nofun
      phaseInv := by rw [State.PhaseInv, State.deliverByte_phase, hi]; exact hle }

/-- The advance of `BIT` inside a run does not leave its range. -/
theorem bit_succ_toNat {b : CmdIndex} (h : b.toNat < 8) : (b + 1#4).toNat = b.toNat + 1 := by bv_omega

end Invariant

/-- Settles O35: the transitions one by one. Those that move on only hand over the part about the phase; the three that
write a memory have their lemmas above. -/
theorem stepKeepsInvariant : Obligations.StepKeepsInvariant := by
  intro s t h hstep
  cases step_cases hstep with
  | init w hp ho hi =>
    exact
      { h with
        ringWf := rfl
        fillCap := Nat.zero_le _
        rdCap := Nat.zero_le _
        onlyAfterInit := nofun
        phaseInv := by simpa only [State.PhaseInv, State.record, State.initialised, hi] using .inr ⟨rfl, rfl⟩ }
  | read w hp ho hi hv =>
    exact
      { h with
        destWf := rfl
        destWritten := fun j => by simp [State.destRead]
        filledLe := Nat.zero_le _
        onlyAfterInit := fun hf => absurd (hv.symm.trans hf) nofun
        phaseInv := h.settled_of_idle hi }
  | hold => exact h
  | request => exact { h with }
  | attach => exact { h with }
  | loopOn hp hi hr =>
    exact { h with onlyAfterInit := h.started hi nofun, phaseInv := (h.settled_of_loop hi).rd_le_fill }
  | loopEnd hp hi hr =>
    exact
      { h with
        onlyAfterInit := h.started hi nofun
        phaseInv := ⟨h.settled_of_loop hi, .inl (Nat.le_antisymm h.filledLe (Nat.le_of_not_lt hr))⟩ }
  | drainByte hp hi hs hr => exact h.deliverByte hi hs hr
  | drainRun hp hi he =>
    exact { h with fillCap := Nat.zero_le _, onlyAfterInit := h.started hi nofun, phaseInv := rfl }
  | drainFull hp hi hs he =>
    exact
      { h with
        onlyAfterInit := h.started hi nofun
        phaseInv := .inl (BitVec.lt_of_le_ne (h.rd_le_of_drain hi) he) }
  | pullBmp hp hi => exact { h with onlyAfterInit := h.started hi nofun, phaseInv := h.fill_of_bmpf hi }
  | runDone hp hi hb =>
    exact
      { h with
        rdCap := Nat.zero_le _
        onlyAfterInit := h.started hi nofun
        phaseInv := State.settled_of_rd_zero (s := s.runCompleted) rfl }
  | pullLit hp hi hb hl =>
    exact { h with onlyAfterInit := h.started hi nofun, phaseInv := ⟨hb, hl, (h.of_cmd hi).2⟩ }
  | pullCpy hp hi hb hl =>
    exact { h with onlyAfterInit := h.started hi nofun, phaseInv := ⟨hb, hl, (h.of_cmd hi).2⟩ }
  | abort p src hp hi ha =>
    exact
      { h with
        rdCap := Nat.zero_le _
        onlyAfterInit := h.started hi nofun
        phaseInv := State.settled_of_rd_zero (s := (s.answered .fail src).exhausted) rfl }
  | gotBmp f src hp hi ha =>
    have hfill : s.fill.toNat = 0 := by rw [h.fill_of_waitBmp hi]; rfl
    exact { h with onlyAfterInit := h.started hi nofun, phaseInv := ⟨Nat.zero_le _, hfill.le⟩ }
  | gotLit d src hp hi ha hc =>
    obtain ⟨hb, -, hf⟩ := h.of_waitLit hi
    have hbit := bit_succ_toNat hb
    have hfill := State.emitByte_fill_toNat d hc
    have hcmd : (s.bit + 1#4).toNat ≤ 8 ∧ (s.emitByte d).fill.toNat ≤ 18 * (s.bit + 1#4).toNat := by omega
    exact
      { h with
        ringWf := State.ringWf_emitByte d h.ringWf
        stageWf := State.stageWf_emitByte d hc h.stageWf
        fillCap := State.emitByte_fill_le d hc
        onlyAfterInit := h.started hi nofun
        phaseInv := hcmd }
  | gotCpy c0 c1 src hp hi ha =>
    obtain ⟨hb, hl, hf⟩ := h.of_waitCpy hi
    exact
      { h with
        onlyAfterInit := h.started hi nofun
        phaseInv := ⟨hb, hl, rfl, rfl, Nat.zero_le _, hf⟩ }
  | copyByte hp hi hx hc =>
    obtain ⟨hb, hl, hstart, hlen, -, hf⟩ := h.of_copy hi
    have hidx : (s.idx + 1#5).toNat = s.idx.toNat + 1 := by bv_omega
    have hfill := State.emitByte_fill_toNat s.copySource hc
    have hle : s.idx + 1#5 ≤ s.len := by bv_omega
    have hroom : (s.emitByte s.copySource).fill.toNat ≤ 18 * s.bit.toNat + (s.idx + 1#5).toNat := by omega
    exact
      { h with
        ringWf := State.ringWf_emitByte s.copySource h.ringWf
        stageWf := State.stageWf_emitByte s.copySource hc h.stageWf
        fillCap := State.emitByte_fill_le s.copySource hc
        phaseInv := by
          simpa only [State.PhaseInv, State.emitByte_phase, hi] using ⟨hb, hl, hstart, hlen, hle, hroom⟩ }
  | copyEnd hp hi hx =>
    obtain ⟨hb, -, -, -, -, hf⟩ := h.of_copy hi
    have hbit := bit_succ_toNat hb
    have hlen := h.len_le_of_copy hi
    rw [hx] at hf
    have hcmd : (s.bit + 1#4).toNat ≤ 8 ∧ s.fill.toNat ≤ 18 * (s.bit + 1#4).toNat := by omega
    exact { h with onlyAfterInit := h.started hi nofun, phaseInv := hcmd }
  | checkEnd hp hi hf =>
    exact { h with onlyAfterInit := h.started hi nofun, phaseInv := ⟨h.settled_of_check hi, .inr hf⟩ }
  | checkOn hp hi hf =>
    exact { h with onlyAfterInit := h.started hi nofun, phaseInv := h.settled_of_check hi }
  | ret hp hi => exact { h with onlyAfterInit := fun _ => rfl, phaseInv := h.settled_of_ret hi }

/-! ### Faults -/

/-- The accesses that fault, one constructor for each, with the guard that fails (log 13). -/
inductive Faulting (s : State) : Fault → Prop where
  | drain (hi : s.phase = .drain) (hs : s.rd < s.fill) (hc : ¬ s.rd.toNat < 144) : Faulting s .stageIndex
  | command (hi : s.phase = .cmd) (hb : 8 < s.bit.toNat) : Faulting s .bitIndex
  | literal (hi : s.phase = .wait .xLit) (hc : ¬ s.fill.toNat < 144) : Faulting s .stageIndex
  | copyByte (hi : s.phase = .copy) (hx : s.idx < s.len) (hc : ¬ s.fill.toNat < 144) : Faulting s .stageIndex
  | copyEnd (hi : s.phase = .copy) (hx : s.len < s.idx) : Faulting s .copyIndex

/-- A command word at the port is executed or refused, never a fault (R264). -/
theorem exec_decodeHost_ne_fault (w : HostWord) (s : State) (f : Fault) : exec (decodeHost w) s ≠ .fault f := by
  unfold decodeHost
  split
  · simp only [exec, execInit]
    split <;> nofun
  · simp only [exec, execRead]
    split
    · split <;> nofun
    · nofun

/-- A pull's answer faults only where a literal finds no room. -/
theorem stepWait_fault_cases {s : State} {p : PullPoint} {f : Fault} (hi : s.phase = .wait p)
    (h : stepWait p s = .fault f) : Faulting s f := by
  rw [stepWait] at h
  split at h
  · cases h
  · cases h
  · rename_i bytes src ha
    rw [runCode] at h
    split at h
    · rename_i i hd
      obtain ⟨_, rfl, rfl, rfl⟩ | ⟨d, rfl, rfl, rfl⟩ | ⟨_, _, rfl, rfl, rfl⟩ := decode_stream_ok hd
      · cases h
      · by_cases hf : s.fill.toNat < 144
        · rw [exec_lit d (s.answered (.ok [d]) src) hf] at h; cases h
        · rw [exec_lit_full d (s.answered (.ok [d]) src) hf] at h; cases h
          exact .literal hi hf
      · cases h
    · cases h

/-- A step that faults makes one of these accesses. -/
theorem step_fault_cases {s : State} {f : Fault} (h : step s = .fault f) : Faulting s f := by
  cases hp : s.port with
  | some w =>
    rw [step_of_port hp] at h
    exact absurd h (exec_decodeHost_ne_fault w _ f)
  | none =>
    rw [step_of_port_none hp, stepPhase] at h
    split at h <;> rename_i hi
    · rw [stepIdle] at h
      split at h <;> cases h
    · rw [stepLoop] at h
      split at h <;> cases h
    · rw [stepDrain] at h
      simp only [State.staged, State.roomLeft, State.drained, Bool.and_eq_true, decide_eq_true_eq] at h
      split at h
      · rename_i hc
        rw [State.deliver] at h
        split at h <;> cases h
        exact .drain hi hc.1 ‹_›
      · split at h <;> cases h
    · cases h
    · rw [stepCmd] at h
      split at h <;> rename_i hne
      · cases h
      · split at h <;> rename_i hlt
        · split at h <;> cases h
        · cases h
          exact .command hi (Nat.lt_of_le_of_ne (Nat.le_of_not_lt hlt) (Ne.symm hne))
    · rw [stepCopy] at h
      split at h
      · obtain ⟨-, he⟩ | ⟨hf, he⟩ := s.emit_cases s.copySource <;> rw [he] at h <;> cases h
        exact .copyByte hi ‹_› hf
      · split at h <;> cases h
        exact .copyEnd hi (by bv_omega)
    · rw [stepCheck] at h
      split at h <;> cases h
    · cases h
    · exact stepWait_fault_cases hi h

/-- Settles O36: the invariant excludes each faulting access. Inside a run at most 18 bytes have been staged for each of at
most seven commands done, and at most 17 of the copy in progress. -/
theorem noStepFaults : Obligations.NoStepFaults := by
  intro s f h hstep
  cases step_fault_cases hstep with
  | drain hi hs hc =>
    have hcap : s.fill.toNat ≤ 144 := h.fillCap
    bv_omega
  | command hi hb =>
    obtain ⟨hle, -⟩ := h.of_cmd hi
    omega
  | literal hi hc =>
    obtain ⟨hb, -, hf⟩ := h.of_waitLit hi
    omega
  | copyByte hi hx hc =>
    obtain ⟨hb, -, -, -, -, hf⟩ := h.of_copy hi
    have hlen := h.len_le_of_copy hi
    have hidx : s.idx.toNat < s.len.toNat := hx
    omega
  | copyEnd hi hx =>
    obtain ⟨-, -, -, -, hle, -⟩ := h.of_copy hi
    exact absurd hx (BitVec.not_lt.mpr hle)

end Sys2Proof.Machine

/-! SUPPORT. What a step does to `RING`, `WPOS` and `STAGE`, said once; and from it the settlements of O38, O39 and O40. -/

namespace Sys2Proof.Machine

/-- Two states hold the same ring, cursor, staging RAM and emitted bytes. -/
structure State.SameMemories (t u : State) : Prop where
  ring : t.ring = u.ring
  wpos : t.wpos = u.wpos
  stage : t.stage = u.stage
  emitted : t.emitted = u.emitted

/-- What a step can do to the memories: those of `INIT`, those of one `EMIT`, or nothing (R51, R52); with the fate of
`FILL`. -/
inductive MemoryEffect (s t : State) : Prop where
  | init (w : HostWord) (hp : s.port = some w) (ho : w.op = 0#1) (hm : t.SameMemories s.initialised) (hf : t.fill = 0#8)
  | emit (b : Byte) (hp : s.port = none) (hi : s.phase = .wait .xLit ∨ s.phase = .copy ∧ s.idx < s.len)
      (hc : s.fill.toNat < 144) (hm : t.SameMemories (s.emitByte b)) (hf : t.fill = (s.emitByte b).fill)
  | keep (hm : t.SameMemories s) (hf : t.fill = s.fill ∨ t.fill = 0#8)

theorem step_memoryEffect {s t : State} (h : step s = .next t) : MemoryEffect s t := by
  cases step_cases h with
  | init w hp ho hi => exact .init w hp ho ⟨rfl, rfl, rfl, rfl⟩ rfl
  | gotLit d src hp hi ha hc => exact .emit d hp (.inl hi) hc ⟨rfl, rfl, rfl, rfl⟩ rfl
  | copyByte hp hi hx hc => exact .emit s.copySource hp (.inr ⟨hi, hx⟩) hc ⟨rfl, rfl, rfl, rfl⟩ rfl
  | drainRun => exact .keep ⟨rfl, rfl, rfl, rfl⟩ (.inr rfl)
  | _ => exact .keep ⟨rfl, rfl, rfl, rfl⟩ (.inl rfl)

/-! ### The ring history -/

/-- The ring history speaks of the memories only. -/
theorem State.RingHistory.congr {s t : State} (h : s.RingHistory) (hm : t.SameMemories s) : t.RingHistory := by
  simpa only [State.RingHistory, State.ringRead, hm.ring, hm.wpos, hm.emitted] using h

/-- Right after `INIT` nothing has been emitted and every byte of the ring is filler (R120). -/
theorem State.ringHistory_initialised (s : State) : s.initialised.RingHistory := by
  refine ⟨rfl, fun j h1 hj => ?_, fun a _ => rfl⟩
  simp only [State.initialised_emitted, List.length_nil] at hj
  omega

/-- Before the advanced cursor, one further back is where it was. -/
theorem ringIndex_succ_sub (w : RingIndex) (i : Nat) :
    w + 1#12 - BitVec.ofNat 12 (i + 1) = w - BitVec.ofNat 12 i := by bv_omega

/-- Up to 4095 places behind the cursor is not the cursor. -/
theorem ringIndex_ne_sub (w : RingIndex) {i : Nat} (h1 : 1 ≤ i) (hi : i < 4096) : w ≠ w - BitVec.ofNat 12 i := by bv_omega

/-- An `EMIT` keeps the ring history: the new byte stands just behind the new cursor, and the byte it overwrites was filler or
the oldest of 4096 (R29, R130). -/
theorem State.RingHistory.emitByte {s : State} (h : s.RingHistory) (b : Byte) : (s.emitByte b).RingHistory := by
  obtain ⟨hwpos, hbehind, hfiller⟩ := h
  refine ⟨?_, fun j h1 hj => ?_, fun a ha => ?_⟩
  · rw [State.emitByte_wpos_toNat, hwpos, State.emitByte_emitted, List.length_cons]
    omega
  · obtain ⟨i, rfl⟩ : ∃ i, j = i + 1 := ⟨j - 1, by omega⟩
    simp only [State.emitByte_emitted, List.length_cons] at hj
    rw [State.ringRead_emitByte, State.emitByte_emitted, State.emitByte_wpos, ringIndex_succ_sub, Nat.add_sub_cancel]
    cases i with
    | zero => simp
    | succ k =>
      rw [if_neg (ringIndex_ne_sub s.wpos (by omega) (by omega)), List.getElem?_cons_succ]
      exact hbehind (k + 1) (by omega) (by omega)
  · simp only [State.emitByte_emitted, List.length_cons, State.emitByte_wpos] at ha
    have hold : ∀ i, i ≤ min s.emitted.length 4095 → a ≠ s.wpos - BitVec.ofNat 12 i := fun i hi => by
      rw [← ringIndex_succ_sub]
      exact ha (i + 1) (by omega) (by omega)
    have hcur : a ≠ s.wpos := by simpa using hold 0 (by omega)
    rw [State.ringRead_emitByte, if_neg (Ne.symm hcur)]
    refine hfiller a fun j h1 hj => ?_
    by_cases h4096 : j = 4096
    · rw [h4096]
      simpa using hcur
    · exact hold j (by omega)

/-- Settles O38: `INIT` establishes the history, and of the steps only `EMIT` moves it on. -/
theorem ringHistoryLaw : Obligations.RingHistoryLaw := by
  refine ⟨fun s t h => ?_, fun s t h hstep => ?_⟩
  · by_cases hi : s.phase = .idle
    · rw [exec_init s hi] at h
      cases h
      exact ⟨rfl, s.ringHistory_initialised.congr ⟨rfl, rfl, rfl, rfl⟩⟩
    · rw [exec_init_busy s hi] at h
      cases h
  · cases step_memoryEffect hstep with
    | init _ _ _ hm => exact s.ringHistory_initialised.congr hm
    | emit b _ _ _ hm => exact (h.emitByte b).congr hm
    | keep hm => exact h.congr hm

/-! ### The staged bytes -/

/-- The stage history speaks of the memories and `FILL` only. -/
theorem State.StageHistory.congr {s t : State} (h : s.StageHistory) (hm : t.SameMemories s) (hf : t.fill = s.fill) :
    t.StageHistory := by
  simpa only [State.StageHistory, State.stageRead, hm.stage, hm.emitted, hf] using h

/-- With nothing staged there is nothing to say. -/
theorem State.stageHistory_of_fill_zero {s : State} (hf : s.fill = 0#8) : s.StageHistory := by
  simp [State.StageHistory, hf]

/-- An `EMIT` keeps the stage history: the new byte stands last (R23, R130). -/
theorem State.StageHistory.emitByte {s : State} (h : s.StageHistory) (b : Byte) (hc : s.fill.toNat < 144) :
    (s.emitByte b).StageHistory := by
  obtain ⟨hlen, hlast⟩ := h
  rw [State.StageHistory, State.emitByte_fill_toNat b hc, State.emitByte_emitted]
  refine ⟨Nat.succ_le_succ hlen, fun j hj => ?_⟩
  rw [State.stageRead_emitByte]
  cases j with
  | zero => simp
  | succ i =>
    rw [if_neg (by omega), List.getElem?_cons_succ, hlast i (by omega)]
    congr 2
    omega

/-- Settles O39: `INIT` and the start of a run stage nothing, and of the other steps only `EMIT` moves the history on. -/
theorem stagedBytesAreTheLatest : Obligations.StagedBytesAreTheLatest := by
  refine ⟨State.stageHistory_of_fill_zero rfl, fun s t h hstep => ?_⟩
  cases step_memoryEffect hstep with
  | init _ _ _ _ hf => exact State.stageHistory_of_fill_zero hf
  | emit b _ _ hc hm hf => exact (h.emitByte b hc).congr hm hf
  | keep hm hf =>
    rcases hf with hf | hf
    · exact h.congr hm hf
    · exact State.stageHistory_of_fill_zero hf

/-! ### Who writes the memories -/

/-- Settles O40: the premises exclude `INIT` and both places that emit. -/
theorem onlyInitAndEmitWriteTheRing : Obligations.OnlyInitAndEmitWriteTheRing := by
  intro s t hstep hport hphase
  cases step_memoryEffect hstep with
  | init w hp ho => exact absurd ho (hport w hp)
  | emit b hp hi =>
    obtain ⟨hlit, hcopy⟩ := hphase hp
    rcases hi with hi | ⟨hi, hx⟩
    · exact absurd hi hlit
    · exact absurd (hcopy hi) (BitVec.ne_of_lt hx)
  | keep hm => exact ⟨hm.ring, hm.wpos, hm.stage, hm.emitted⟩

end Sys2Proof.Machine

/-! SUPPORT. The operand bytes a copy keeps in `C0` and `C1`, and the settlement of O16. -/

namespace Sys2Proof.Machine

/-- Settles O16: `C0` and `C1` are the bytes the operand encodes to, and they assemble to it again (R96, R97). -/
theorem copyStarts : Obligations.CopyStarts := by
  intro start len s hwf
  simp only [Instr.wellFormed, Bool.and_eq_true, decide_eq_true_eq] at hwf
  obtain ⟨h3, h18⟩ := hwf
  refine ⟨copyByte0 start, copyByte1 start len, exec_cpy start len s, (copyStart_copyBytes start len h3 h18).symm, ?_⟩
  calc len.toNat = (copyLen (copyByte1 start len)).toNat := by rw [copyLen_copyBytes start len h3 h18]
    _ = (copyByte1 start len).toNat % 16 + 3 := copyLen_toNat _
    _ = ((copyByte1 start len).extractLsb' 0 4).toNat + 3 := by simp

end Sys2Proof.Machine

/-! SUPPORT. Two runs of the big-step operations side by side, from states that agree on what a `READ` can see; and the
settlement of O52. -/

namespace Sys2Proof.Machine

/-! ### What two states have to agree on -/

/-- Two states agree on what one `READ` leaves for the next: the ring, the cursors, the staged bytes (R24, R39: nothing at or
beyond `FILL`), the source, and the trace so far. -/
structure State.Alike (s t : State) : Prop where
  ring : s.ring = t.ring
  wpos : s.wpos = t.wpos
  fill : s.fill = t.fill
  rd : s.rd = t.rd
  source : s.source = t.source
  trace : s.trace = t.trace
  staged : ∀ k, k < s.fill.toNat → s.stageRead k = t.stageRead k

/-- They also agree on the registers and the destination of a `READ` in progress. -/
structure State.ReadAlike (s t : State) : Prop extends s.Alike t where
  n : s.n = t.n
  filled : s.filled = t.filled
  dest : s.dest = t.dest

/-- They also agree on the registers of a run in progress. -/
structure State.RunAlike (s t : State) : Prop extends s.ReadAlike t where
  bmp : s.bmp = t.bmp
  bit : s.bit = t.bit

/-- Two outcomes stop for the same reason, or answer next states in a relation. -/
inductive SameEnd (R : State → State → Prop) :
    Host.Outcome State Fault Refusal → Host.Outcome State Fault Refusal → Prop where
  | next {s t : State} (h : R s t) : SameEnd R (.next s) (.next t)
  | fault (r : Fault) : SameEnd R (.fault r) (.fault r)
  | refused (r : Refusal) : SameEnd R (.refused r) (.refused r)

/-- Sequences end alike when their parts do. -/
theorem SameEnd.andThen {R Q : State → State → Prop} {o o' : Host.Outcome State Fault Refusal}
    {f g : State → Host.Outcome State Fault Refusal} (ho : SameEnd R o o')
    (hf : ∀ {s t}, R s t → SameEnd Q (f s) (g t)) : SameEnd Q (andThen o f) (andThen o' g) := by
  cases ho with
  | next h => exact hf h
  | fault r => exact .fault r
  | refused r => exact .refused r

theorem SameEnd.mono {R Q : State → State → Prop} {o o' : Host.Outcome State Fault Refusal} (ho : SameEnd R o o')
    (hRQ : ∀ {s t}, R s t → Q s t) : SameEnd Q o o' := by
  cases ho with
  | next h => exact .next (hRQ h)
  | fault r => exact .fault r
  | refused r => exact .refused r

section

variable {s t : State}

/-! ### The shared operations keep the agreement -/

theorem State.Alike.ringRead (h : s.Alike t) (a : RingIndex) : s.ringRead a = t.ringRead a :=
  s.ringRead_congr t h.ring a

theorem State.RunAlike.literalNext (h : s.RunAlike t) : s.literalNext = t.literalNext := by
  rw [State.literalNext, State.literalNext, h.bmp, h.bit]

/-- The byte an `EMIT` stages is the same in both, and stands at the same index. -/
theorem State.Alike.stageRead_emitByte (h : s.Alike t) (b : Byte) (hc : s.fill.toNat < 144) (k : Nat)
    (hk : k < (s.emitByte b).fill.toNat) : (s.emitByte b).stageRead k = (t.emitByte b).stageRead k := by
  rw [s.emitByte_fill_toNat b hc] at hk
  rw [State.stageRead_emitByte, State.stageRead_emitByte, ← h.fill]
  split
  · rfl
  · exact h.staged k (by omega)

theorem State.RunAlike.emitByte (h : s.RunAlike t) (b : Byte) (hc : s.fill.toNat < 144) :
    (s.emitByte b).RunAlike (t.emitByte b) :=
  { h with
    ring := by rw [State.emitByte_ring, State.emitByte_ring, h.ring, h.wpos]
    wpos := congrArg (· + 1#12) h.wpos
    fill := congrArg (· + 1#8) h.fill
    staged := h.stageRead_emitByte b hc }

theorem State.RunAlike.emit (h : s.RunAlike t) (b : Byte) : SameEnd State.RunAlike (s.emit b) (t.emit b) := by
  by_cases hc : s.fill.toNat < 144
  · rw [s.emit_eq b hc, t.emit_eq b (h.fill ▸ hc)]
    exact .next (h.emitByte b hc)
  · rw [s.emit_full b hc, t.emit_full b (h.fill ▸ hc)]
    exact .fault _

theorem State.RunAlike.nextBit (h : s.RunAlike t) :
    State.RunAlike { s with bit := s.bit + 1#4 } { t with bit := t.bit + 1#4 } :=
  { h with bit := congrArg (· + 1#4) h.bit }

theorem State.ReadAlike.bitmapTaken (h : s.ReadAlike t) (f : Byte) :
    State.RunAlike { s with bmp := f, bit := 0#4 } { t with bmp := f, bit := 0#4 } :=
  { h with bmp := rfl, bit := rfl }

/-- A pull goes the same way from a source at the same place: never answered, or answered alike. -/
theorem State.Alike.pullNow (h : s.Alike t) (k : Nat) :
    (s.pullNow k = none ∧ t.pullNow k = none) ∨
      ∃ a src, s.pullNow k = some (a, (s.record (.pull k)).answered a src) ∧
        t.pullNow k = some (a, (t.record (.pull k)).answered a src) := by
  cases hq : s.source.pull k with
  | none => exact .inl ⟨State.pullNow_of_none hq, State.pullNow_of_none (h.source ▸ hq)⟩
  | some r => exact .inr ⟨r.1, r.2, State.pullNow_of_some hq, State.pullNow_of_some (h.source ▸ hq)⟩

/-- A pull and its answer add the same two events. -/
theorem State.Alike.pulled_trace (h : s.Alike t) (k : Nat) (a : Answer) (src : Source) :
    ((s.record (.pull k)).answered a src).trace = ((t.record (.pull k)).answered a src).trace := by
  simp only [State.answered_trace, State.record_trace, h.trace]

theorem State.ReadAlike.pulled (h : s.ReadAlike t) (k : Nat) (a : Answer) (src : Source) :
    ((s.record (.pull k)).answered a src).ReadAlike ((t.record (.pull k)).answered a src) :=
  { h with source := rfl, trace := h.pulled_trace k a src }

theorem State.RunAlike.pulled (h : s.RunAlike t) (k : Nat) (a : Answer) (src : Source) :
    ((s.record (.pull k)).answered a src).RunAlike ((t.record (.pull k)).answered a src) :=
  { h with source := rfl, trace := h.pulled_trace k a src }

theorem State.ReadAlike.runStarted (h : s.ReadAlike t) : s.runStarted.ReadAlike t.runStarted :=
  { h with fill := rfl, staged := fun _ hk => absurd hk (Nat.not_lt_zero _) }

theorem State.ReadAlike.destWrite (h : s.ReadAlike t) (j : Nat) (v : Byte) :
    (s.destWrite j v).ReadAlike (t.destWrite j v) :=
  { h with
    dest := by rw [State.destWrite_dest, State.destWrite_dest, h.dest]
    trace := by rw [State.destWrite_trace, State.destWrite_trace, h.trace] }

theorem State.Alike.readStarted (h : s.Alike t) (n : Nat) : (s.readStarted n).ReadAlike (t.readStarted n) :=
  { h with n := rfl, filled := rfl, dest := rfl }

theorem State.ReadAlike.readReturned (h : s.ReadAlike t) : s.readReturned.ReadAlike t.readReturned :=
  { h with trace := by rw [State.readReturned_trace, State.readReturned_trace, h.trace, h.filled] }

theorem State.ReadAlike.deliveredBytes (h : s.ReadAlike t) : s.deliveredBytes = t.deliveredBytes := by
  simp only [State.deliveredBytes, State.destRead, h.filled, h.dest]

/-! ### RUN -/

theorem State.RunAlike.blockCopyFrom (h : s.RunAlike t) (start : RingIndex) (i k : Nat) :
    SameEnd State.RunAlike (blockCopyFrom start i k s) (blockCopyFrom start i k t) := by
  induction k generalizing i s t with
  | zero => exact .next h
  | succ k ih =>
    rw [Machine.blockCopyFrom, Machine.blockCopyFrom, h.ringRead]
    exact (h.emit _).andThen fun hu => ih hu (i + 1)

theorem State.RunAlike.runCommands (h : s.RunAlike t) (k : Nat) :
    SameEnd State.RunAlike (runCommands k s) (runCommands k t) := by
  induction k generalizing s t with
  | zero => exact .next h
  | succ k ih =>
    rw [Machine.runCommands, Machine.runCommands, h.literalNext]
    split
    · obtain ⟨hs, ht⟩ | ⟨a, src, hs, ht⟩ := h.pullNow 1 <;> rw [hs, ht]
      · exact .refused _
      · have hu := h.pulled 1 a src
        match a with
        | .fail => exact .next hu
        | .ok [b] => exact (hu.emit b).andThen fun hv => ih hv.nextBit
        | .ok [] => exact .refused _
        | .ok (_ :: _ :: _) => exact .refused _
    · obtain ⟨hs, ht⟩ | ⟨a, src, hs, ht⟩ := h.pullNow 2 <;> rw [hs, ht]
      · exact .refused _
      · have hu := h.pulled 2 a src
        match a with
        | .fail => exact .next hu
        | .ok [b0, b1] => exact (hu.blockCopyFrom _ 0 _).andThen fun hv => ih hv.nextBit
        | .ok [] => exact .refused _
        | .ok [_] => exact .refused _
        | .ok (_ :: _ :: _ :: _) => exact .refused _

/-- A run sets `FILL`, `BMP` and `BIT` before it reads them (R150). -/
theorem State.ReadAlike.runRun (h : s.ReadAlike t) : SameEnd State.ReadAlike (runRun s) (runRun t) := by
  rw [Machine.runRun, Machine.runRun]
  obtain ⟨hs, ht⟩ | ⟨a, src, hs, ht⟩ := h.runStarted.pullNow 1 <;> rw [hs, ht]
  · exact .refused _
  · have hu := h.runStarted.pulled 1 a src
    match a with
    | .fail => exact .next hu
    | .ok [f] => exact ((hu.bitmapTaken f).runCommands _).mono State.RunAlike.toReadAlike
    | .ok [] => exact .refused _
    | .ok (_ :: _ :: _) => exact .refused _

/-! ### READ -/

/-- The writes of a drain that stays below `FILL`. -/
theorem State.ReadAlike.drainWrites (h : s.ReadAlike t) (k : Nat) (hk : k ≤ s.fill.toNat - s.rd.toNat) :
    (s.drainWrites k).ReadAlike (t.drainWrites k) := by
  induction k with
  | zero => exact h
  | succ k ih =>
    rw [State.drainWrites, State.drainWrites, ← h.filled, ← h.rd, ← h.staged (s.rd.toNat + k) (by omega)]
    exact (ih (by omega)).destWrite _ _

theorem State.ReadAlike.drain (h : s.ReadAlike t) : s.drain.ReadAlike t.drain := by
  simp only [State.drain, ← h.fill, ← h.rd, ← h.n, ← h.filled]
  exact { h.drainWrites _ (Nat.min_le_left _ _) with rd := rfl, filled := rfl }

theorem State.ReadAlike.refill (h : s.ReadAlike t) : SameEnd State.ReadAlike (refill s) (refill t) := by
  by_cases hd : s.rd = s.fill
  · rw [refill_of_drained hd, refill_of_drained (h.rd ▸ h.fill ▸ hd)]
    exact h.runRun.andThen fun hu => .next { hu with rd := rfl }
  · rw [refill_of_staged hd, refill_of_staged (h.rd ▸ h.fill ▸ hd)]
    exact .next h

theorem State.ReadAlike.readLoop (h : s.ReadAlike t) (fuel : Nat) :
    SameEnd State.ReadAlike (readLoop fuel s) (readLoop fuel t) := by
  induction fuel generalizing s t with
  | zero => exact .next h
  | succ fuel ih =>
    by_cases hr : s.filled < s.n
    · rw [readLoop_of_room fuel hr, readLoop_of_room fuel (h.filled ▸ h.n ▸ hr)]
      refine h.drain.refill.andThen fun {u v} hu => ?_
      rw [← hu.fill]
      split
      · exact .next hu
      · exact ih hu
    · rw [readLoop_of_full _ hr, readLoop_of_full _ (h.filled ▸ h.n ▸ hr)]
      exact .next h

theorem State.Alike.bigRead (h : s.Alike t) (n : Nat) : SameEnd State.ReadAlike (bigRead n s) (bigRead n t) :=
  ((h.readStarted n).readLoop (n + 1)).andThen fun hu => .next hu.readReturned

end

/-! ### A session -/

/-- What the outside sees of a session that has returned: the bytes of each `READ`, the trace, and what is left of the
source. -/
def sessionSeen (r : List (List Byte) × State) : List (List Byte) × List Event × Source := (r.1, r.2.trace, r.2.source)

/-- From states that agree, every session is seen alike. -/
theorem State.Alike.readSession {s t : State} (h : s.Alike t) (ns : List Nat) :
    (readSession ns s).map sessionSeen = (readSession ns t).map sessionSeen := by
  induction ns generalizing s t with
  | nil => simp only [Machine.readSession, Option.map_some, sessionSeen, h.trace, h.source]
  | cons n ns ih =>
    have hread := h.bigRead n
    rw [Machine.readSession, Machine.readSession]
    generalize Machine.bigRead n s = o, Machine.bigRead n t = o' at hread ⊢
    cases hread with
    | next hu =>
      simpa only [Option.map_map, Function.comp_def, sessionSeen, hu.deliveredBytes] using
        congrArg (Option.map fun seen => (_ :: seen.1, seen.2)) (ih hu.toAlike)
    | fault => rfl
    | refused => rfl

/-- `INIT` leaves nothing to disagree on but the source and the trace: the ring, the cursors and `FILL` are set, and no byte
is staged (R120, R122). -/
theorem State.alike_initialised {s t : State} (hsrc : s.source = t.source) (htrace : s.trace = t.trace) :
    s.initialised.Alike t.initialised where
  ring := rfl
  wpos := rfl
  fill := rfl
  rd := rfl
  source := hsrc
  trace := htrace
  staged := fun _ hk => absurd hk (Nat.not_lt_zero _)

/-- Settles O52: after `INIT` the states agree, and every session keeps that. -/
theorem initForgetsThePast : Obligations.InitForgetsThePast :=
  fun _ _ ns hsrc htrace => (State.alike_initialised hsrc htrace).readSession ns

end Sys2Proof.Machine

/-! SUPPORT. The source `STREAM(S)`, the drain step by step, the machine after power-on, and the ways a step can be refused;
the settlements of O11, O21, O23, O28, O34 and O37. -/

namespace Sys2Proof.Machine

/-! ### The source -/

theorem Source.pull_stream_enough {bytes : List Byte} {pos k : Nat} (spend : Bool) (h : pos + k ≤ bytes.length) :
    (Source.stream bytes pos spend).pull k = some (.ok ((bytes.drop pos).take k), .stream bytes (pos + k) spend) :=
  if_pos h

theorem Source.pull_stream_short {bytes : List Byte} {pos k : Nat} (spend : Bool) (h : ¬ pos + k ≤ bytes.length) :
    (Source.stream bytes pos spend).pull k = some (.fail, .stream bytes (if spend then bytes.length else pos) spend) :=
  if_neg h

/-- Settles O21: the bytes of a successful pull are the k bytes of S from p on. -/
theorem streamSourcePull : Obligations.StreamSourcePull := by
  intro bytes p k spend
  refine ⟨fun h => ⟨_, Source.pull_stream_enough spend h, ?_, fun i hi => ?_⟩, fun h =>
    Source.pull_stream_short spend (Nat.not_le_of_lt h)⟩
  · rw [List.length_take, List.length_drop]
    omega
  · rw [List.getElem?_take_of_lt hi, List.getElem?_drop]

/-- Settles O34: after power-on the memories are empty and nothing is staged. -/
theorem powerOnInvariant : Obligations.PowerOnInvariant where
  ringWf := rfl
  stageWf := rfl
  destWf := rfl
  destWritten := by simp [State.reset, State.destRead]
  fillCap := Nat.zero_le _
  rdCap := Nat.zero_le _
  filledLe := Nat.le_refl _
  onlyAfterInit := fun _ => rfl
  phaseInv := .inr ⟨rfl, rfl⟩

/-! ### The drain -/

section Drain

variable {s : State}

theorem step_of_drain (hp : s.port = none) (hi : s.phase = .drain) : step s = stepDrain s := by
  rw [step_of_port_none hp, stepPhase, hi]

/-- A staged byte and room for it: it is delivered (R214 case a). -/
theorem stepDrain_of_staged (hs : s.rd < s.fill) (hr : s.filled < s.n) (hc : s.rd.toNat < 144) :
    stepDrain s = .next s.deliverByte := by
  rw [stepDrain, if_pos (by simp [State.staged, State.roomLeft, hs, hr]), State.deliver_eq hc]

/-- Drained: a run starts (R214 case b). -/
theorem stepDrain_of_drained (he : s.rd = s.fill) : stepDrain s = .next { s with fill := 0#8, phase := .bmpf } := by
  rw [stepDrain, if_neg (by simp [State.staged, he]), if_pos (by simp [State.drained, he])]
  rfl

/-- Bytes staged and no room left: the stop test is next (R214 case c). -/
theorem stepDrain_of_full (he : s.rd ≠ s.fill) (hr : ¬ s.filled < s.n) :
    stepDrain s = .next { s with phase := .check } := by
  rw [stepDrain, if_neg (by simp [State.roomLeft, hr]), if_neg (by simp [State.drained, he])]

/-- `RD + 1` does not leave its range while a staged byte is unread. -/
theorem rd_succ_toNat (hs : s.rd < s.fill) : (s.rd + 1#8).toNat = s.rd.toNat + 1 := by bv_omega

end Drain

/-- Settles O23: the three cases of the drain; the delivery is `deliverByte`. -/
theorem drainStep : Obligations.DrainStep := by
  intro s hp hi hle hcap
  rw [step_of_drain hp hi]
  refine ⟨fun hs hr => ?_, fun he => ?_, fun hs hr => ?_⟩
  · have hc : s.rd.toNat < 144 := by omega
    refine ⟨s.deliverByte, stepDrain_of_staged hs hr hc, ?_, rfl, rd_succ_toNat hs, rfl, hi, fun j hj => ?_, rfl⟩
    · rw [State.destRead_deliverByte, if_pos rfl]
    · rw [State.destRead_deliverByte, if_neg (Ne.symm hj)]
  · exact stepDrain_of_drained (BitVec.eq_of_toNat_eq he)
  · exact stepDrain_of_full (BitVec.ne_of_lt hs) hr.not_lt

/-! ### Refusals -/

/-- A command word while the core is not idle is refused (R72, R124). -/
theorem exec_decodeHost_busy (w : HostWord) {s : State} (hi : s.phase ≠ .idle) :
    exec (decodeHost w) s = .refused .busy := by
  unfold decodeHost
  split
  · exact exec_init_busy s hi
  · exact exec_read_busy w.n s hi

/-- Settles O11: both host operations refuse. -/
theorem requestOutsideIdleHasNoStep : Obligations.RequestOutsideIdleHasNoStep := by
  intro s w hp hi
  rw [step_of_port hp]
  exact exec_decodeHost_busy w hi

theorem step_of_wait {s : State} {p : PullPoint} (hp : s.port = none) (hi : s.phase = .wait p) :
    step s = stepWait p s := by
  rw [step_of_port_none hp, stepPhase, hi]

/-- Settles O28: without an answer `WAIT` has no step. -/
theorem unansweredPullHangs : Obligations.UnansweredPullHangs := by
  intro s p hp hi hq
  rw [step_of_wait hp hi, stepWait, hq]

/-- The stops of the machine, one constructor for each, with what the state shows of it. -/
inductive Refusing (s : State) : Refusal → Prop where
  | busy (w : HostWord) (hp : s.port = some w) (hi : s.phase ≠ .idle) : Refusing s .busy
  | readBeforeInit (w : HostWord) (hp : s.port = some w) (ho : w.op ≠ 0#1) (hi : s.phase = .idle)
      (hv : s.valid = false) : Refusing s .readBeforeInit
  | pullUnanswered (p : PullPoint) (hp : s.port = none) (hi : s.phase = .wait p) (hq : s.source.pull p.count = none) :
      Refusing s .pullUnanswered
  | sourceContract (p : PullPoint) (bytes : List Byte) (src : Source) (hp : s.port = none) (hi : s.phase = .wait p)
      (hq : s.source.pull p.count = some (.ok bytes, src)) (hl : bytes.length ≠ p.count) : Refusing s .sourceContract

/-- A command word is refused where the core is busy, or where a `READ` comes before `INIT`. -/
theorem takeRequest_refused_cases {s : State} {w : HostWord} {r : Refusal} (hp : s.port = some w)
    (h : step s = .refused r) : Refusing s r := by
  by_cases hi : s.phase = .idle
  · rw [step_of_port hp, decodeHost] at h
    split at h
    · rw [exec_init { s with port := none } hi] at h; cases h
    · cases hv : s.valid with
      | true => rw [exec_read w.n { s with port := none } hi hv] at h; cases h
      | false =>
        rw [exec_read_uninitialised w.n { s with port := none } hi hv] at h; cases h
        exact .readBeforeInit w hp ‹_› hi hv
  · rw [requestOutsideIdleHasNoStep s w hp hi] at h; cases h
    exact .busy w hp hi

/-- `WAIT` refuses where the pull is not answered, or answered with a wrong number of bytes (R59, R61). -/
theorem stepWait_refused_cases {s : State} {p : PullPoint} {r : Refusal} (hp : s.port = none) (hi : s.phase = .wait p)
    (h : stepWait p s = .refused r) : Refusing s r := by
  rw [stepWait] at h
  split at h
  · cases h; exact .pullUnanswered p hp hi ‹_›
  · cases h
  · rename_i bytes src hq
    rw [runCode] at h
    split at h
    · rename_i i hd
      obtain ⟨_, rfl, rfl, rfl⟩ | ⟨d, rfl, rfl, rfl⟩ | ⟨_, _, rfl, rfl, rfl⟩ := decode_stream_ok hd
      · cases h
      · by_cases hf : s.fill.toNat < 144
        · rw [exec_lit d (s.answered (.ok [d]) src) hf] at h; cases h
        · rw [exec_lit_full d (s.answered (.ok [d]) src) hf] at h; cases h
      · cases h
    · rename_i hd
      cases h
      exact .sourceContract p bytes src hp hi hq (decode_stream_error hd).1

/-- A step that is refused is one of these stops: the other phases never refuse. -/
theorem step_refused_cases {s : State} {r : Refusal} (h : step s = .refused r) : Refusing s r := by
  cases hp : s.port with
  | some w => exact takeRequest_refused_cases hp h
  | none =>
    rw [step_of_port_none hp, stepPhase] at h
    split at h <;> rename_i hi
    · rw [stepIdle] at h
      split at h <;> cases h
    · rw [stepLoop] at h
      split at h <;> cases h
    · rw [stepDrain, State.deliver] at h
      split at h
      · split at h <;> cases h
      · split at h <;> cases h
    · cases h
    · rw [stepCmd] at h
      split at h
      · cases h
      · split at h
        · split at h <;> cases h
        · cases h
    · rw [stepCopy] at h
      split at h
      · obtain ⟨-, he⟩ | ⟨-, he⟩ := s.emit_cases s.copySource <;> rw [he] at h <;> cases h
      · split at h <;> cases h
    · rw [stepCheck] at h
      split at h <;> cases h
    · cases h
    · exact stepWait_refused_cases hp hi h

/-- Settles O37: a fault is excluded by the invariant, and each refusal shows its cause. -/
theorem stopsOnlyForTheEnvironment : Obligations.StopsOnlyForTheEnvironment := by
  intro s hinv
  cases hstep : step s with
  | next t => exact .inl ⟨t, rfl⟩
  | fault f => exact absurd hstep (noStepFaults s f hinv)
  | refused r =>
    refine .inr ?_
    cases step_refused_cases hstep with
    | busy w hp hi => exact .inl ⟨rfl, by rw [hp]; nofun, hi⟩
    | readBeforeInit w hp ho hi hv => exact .inr (.inl ⟨rfl, hi, hv, w, hp, ho⟩)
    | pullUnanswered p hp hi hq => exact .inr (.inr ⟨p, hp, hi, .inl ⟨rfl, hq⟩⟩)
    | sourceContract p bytes src hp hi hq hl => exact .inr (.inr ⟨p, hp, hi, .inr ⟨rfl, bytes, src, hq, hl⟩⟩)

end Sys2Proof.Machine

/-! SUPPORT. What a step does that the environment can see, said once: to the source, to the destination and to the trace; and
from it the settlements of O41, O42 and O43. -/

namespace Sys2Proof.Machine

/-- Settles O41: an answer is drawn in phase `WAIT` only, and an idle core is excluded. -/
theorem sourceIsReadOnlyByThePull : Obligations.SourceIsReadOnlyByThePull := by
  intro s t hstep hbusy
  cases step_cases hstep with
  | init w hp ho hi => exact absurd hi hbusy
  | attach src rest hp hi hh => exact absurd hi hbusy
  | abort p src hp hi hq => exact .inr ⟨p, .fail, hi, hq⟩
  | gotBmp f src hp hi hq => exact .inr ⟨.xBmp, .ok [f], hi, hq⟩
  | gotLit d src hp hi hq hc => exact .inr ⟨.xLit, .ok [d], hi, hq⟩
  | gotCpy c0 c1 src hp hi hq => exact .inr ⟨.xCpy, .ok [c0, c1], hi, hq⟩
  | _ => exact .inl rfl

/-- No `READ` stands at the port. -/
def State.NoReadAtPort (s : State) : Prop := ∀ w, s.port = some w → w.op = 0#1

theorem State.noReadAtPort_of_port_none {s : State} (hp : s.port = none) : s.NoReadAtPort :=
  fun _ hw => absurd (hp.symm.trans hw) nofun

theorem State.noReadAtPort_of_init {s : State} {w : HostWord} (hp : s.port = some w) (ho : w.op = 0#1) :
    s.NoReadAtPort :=
  fun _ hw => Option.some.inj (hp.symm.trans hw) ▸ ho

/-- A machine in a phase other than `WAIT` has no pull outstanding. -/
theorem not_waiting {s : State} {p : Phase} (hi : s.phase = p) (hp : ∀ q, p ≠ .wait q) (k : Nat) :
    ¬ ∃ q, s.phase = .wait q ∧ q.count = k :=
  fun ⟨q, hq, _⟩ => hp q (hi.symm.trans hq)

/-- What a step can do to the destination and the trace: nothing, and then it goes neither into nor out of `WAIT`; start a
destination; deliver a byte; or record one event that is no destination write, which is a pull exactly when the machine then
waits for it. -/
inductive OutsideEffect (s t : State) : Prop where
  | keep (hr : s.NoReadAtPort) (hd : t.dest = s.dest) (ht : t.trace = s.trace)
      (hw : ∀ p, t.phase = .wait p ↔ s.phase = .wait p)
  | newDest (w : HostWord) (hp : s.port = some w) (ho : w.op ≠ 0#1) (hi : s.phase = .idle) (hd : t.dest = [])
      (ht : t.trace = s.trace) (hl : t.phase = .loop)
  | deliver (hi : s.phase = .drain) (ht : t = s.deliverByte)
  | record (e : Event) (hr : s.NoReadAtPort) (hi : s.phase ≠ .drain) (hd : t.dest = s.dest)
      (ht : t.trace = s.trace ++ [e]) (he : destWrites [e] = [])
      (hw : ∀ k, e = .pull k ↔ ∃ p, t.phase = .wait p ∧ p.count = k)

/-- A step that issues a pull records it. -/
theorem outsideEffect_pullIssued {s : State} (p : PullPoint) (hp : s.port = none) (hi : s.phase ≠ .drain) :
    OutsideEffect s (s.pullIssued p) :=
  .record (.pull p.count) (State.noReadAtPort_of_port_none hp) hi rfl rfl rfl fun k => by simp

/-- A step that takes the answer of a pull records it and leaves `WAIT`. -/
theorem outsideEffect_answered {s t : State} {p : PullPoint} {q : Phase} (a : Answer) (hp : s.port = none)
    (hi : s.phase = .wait p) (hd : t.dest = s.dest) (ht : t.trace = s.trace ++ [.answer a]) (hq : t.phase = q)
    (hw : ∀ r, q ≠ .wait r) : OutsideEffect s t :=
  .record (.answer a) (State.noReadAtPort_of_port_none hp) (hi ▸ nofun) hd ht rfl fun k =>
    iff_of_false nofun (not_waiting hq hw k)

/-- A step inside the sequencer, between two phases other than `WAIT`. -/
theorem outsideEffect_moved {s t : State} {p q : Phase} (hp : s.port = none) (hi : s.phase = p) (hd : t.dest = s.dest)
    (ht : t.trace = s.trace) (hq : t.phase = q) (hpw : ∀ r, p ≠ .wait r) (hqw : ∀ r, q ≠ .wait r) :
    OutsideEffect s t :=
  .keep (State.noReadAtPort_of_port_none hp) hd ht fun r => iff_of_false (hq ▸ hqw r) (hi ▸ hpw r)

theorem step_outsideEffect {s t : State} (h : step s = .next t) : OutsideEffect s t := by
  cases step_cases h with
  | init w hp ho hi =>
    exact .record .initDone (State.noReadAtPort_of_init hp ho) (hi ▸ nofun) rfl rfl rfl fun k =>
      iff_of_false nofun (not_waiting hi nofun k)
  | read w hp ho hi hv => exact .newDest w hp ho hi rfl rfl rfl
  | drainByte hp hi => exact .deliver hi rfl
  | pullBmp hp hi => exact outsideEffect_pullIssued .xBmp hp (hi ▸ nofun)
  | pullLit hp hi => exact outsideEffect_pullIssued .xLit hp (hi ▸ nofun)
  | pullCpy hp hi => exact outsideEffect_pullIssued .xCpy hp (hi ▸ nofun)
  | abort _ _ hp hi => exact outsideEffect_answered .fail hp hi rfl rfl rfl nofun
  | gotBmp f _ hp hi => exact outsideEffect_answered (.ok [f]) hp hi rfl rfl rfl nofun
  | gotLit d _ hp hi => exact outsideEffect_answered (.ok [d]) hp hi rfl rfl rfl nofun
  | gotCpy c0 c1 _ hp hi => exact outsideEffect_answered (.ok [c0, c1]) hp hi rfl rfl rfl nofun
  | ret hp hi =>
    exact .record (.returned s.filled) (State.noReadAtPort_of_port_none hp) (hi ▸ nofun) rfl rfl rfl fun k =>
      iff_of_false nofun (not_waiting s.readReturned_phase nofun k)
  | hold hp hi | request _ _ hp hi | attach _ _ hp hi | copyByte hp hi =>
    exact outsideEffect_moved hp hi rfl rfl hi nofun nofun
  | loopOn hp hi | loopEnd hp hi | drainRun hp hi | drainFull hp hi | runDone hp hi | copyEnd hp hi | checkEnd hp hi
  | checkOn hp hi =>
    exact outsideEffect_moved hp hi rfl rfl rfl nofun nofun

/-- Settles O42: a step that keeps the trace keeps the phase `WAIT` too, and an event that a step records is a pull exactly
when the machine then waits for it. -/
theorem onePullOutstanding : Obligations.OnePullOutstanding := by
  intro s t hstep hlast k
  cases step_outsideEffect hstep with
  | keep _ _ ht hw =>
    simp only [ht, hw]
    exact hlast k
  | newDest w _ _ hi _ ht hl =>
    rw [ht, hlast k]
    exact iff_of_false (not_waiting hi nofun k) (not_waiting hl nofun k)
  | deliver hi ht =>
    subst ht
    rw [State.deliverByte_trace, List.getLast?_concat]
    exact iff_of_false nofun (not_waiting (s.deliverByte_phase.trans hi) nofun k)
  | record e _ _ _ ht _ hw =>
    rw [ht, List.getLast?_concat, Option.some.injEq]
    exact hw k

/-- Settles O43: of the effects of a step, the delivery alone writes the destination. -/
theorem destinationIsWrittenByTheDrain : Obligations.DestinationIsWrittenByTheDrain := by
  intro s t hstep
  cases step_outsideEffect hstep with
  | keep hr hd ht =>
    exact ⟨fun _ => ⟨⟨[], by simp [ht], rfl⟩, fun _ => hd, fun ⟨w, hw, ho⟩ => absurd (hr w hw) ho⟩,
      fun _ => .inl ⟨hd, ht⟩⟩
  | newDest w hp ho hi hd ht =>
    exact ⟨fun _ => ⟨⟨[], by simp [ht], rfl⟩, fun hr => absurd (hr w hp) ho, fun _ => hd⟩,
      fun hdrain => absurd (hi.symm.trans hdrain) nofun⟩
  | deliver hi ht =>
    subst ht
    refine ⟨fun hn => absurd hi hn, fun _ => .inr ⟨rfl, ?_, fun j hj => ?_⟩⟩
    · rw [State.destRead_deliverByte, if_pos rfl]
    · rw [State.destRead_deliverByte, if_neg (Ne.symm hj)]
  | record e hr hi hd ht he =>
    exact ⟨fun _ => ⟨⟨[e], ht, he⟩, fun _ => hd, fun ⟨w, hw, ho⟩ => absurd (hr w hw) ho⟩,
      fun hdrain => absurd hdrain hi⟩

end Sys2Proof.Machine

/-! SUPPORT. The steps a `READ` has left: a measure that every step of the sequencer lowers, and from it the settlement of
O49. -/

namespace Sys2Proof.Machine

section Measure

variable {s t : State}

/-- A bound on the steps to the next idle state of a `READ` that wants no further byte: 174 from `BMPF` when all eight commands
are copies of 18 bytes, of 21 steps each. Where a byte is about to be delivered only the steps up to its delivery count; what
comes after is counted for that byte, see `stepsLeft`. -/
def State.iterationStepsLeft (s : State) : Nat :=
  match s.phase with
  | .idle => 0
  | .ret => 1
  | .loop => if s.rd < s.fill then 2 else 176
  | .drain => if s.rd < s.fill ∧ s.filled < s.n then 1 else 175
  | .bmpf => 174
  | .wait .xBmp => 173
  | .cmd => 21 * (8 - s.bit.toNat) + 4
  | .wait .xLit => 21 * (8 - s.bit.toNat) + 3
  | .wait .xCpy => 21 * (8 - s.bit.toNat) + 3
  | .copy => 21 * (7 - s.bit.toNat) + 4 + (19 - s.idx.toNat)
  | .check => 3

/-- A bound on the steps to the next idle state: each byte still wanted adds its delivery and the run it may be followed by,
175 steps. -/
def State.stepsLeft (s : State) : Nat := 175 * (s.n - s.filled) + s.iterationStepsLeft

/-- The delivery of a byte pays for the run that may follow it. -/
theorem State.deliverByte_stepsLeft_lt (hi : s.phase = .drain) (hs : s.rd < s.fill) (hr : s.filled < s.n) :
    s.deliverByte.stepsLeft < s.stepsLeft := by
  have hnow : s.iterationStepsLeft = 1 := by simp only [State.iterationStepsLeft, hi, hs, hr, and_self, if_true]
  have hnext : s.deliverByte.iterationStepsLeft ≤ 175 := by
    simp only [State.iterationStepsLeft, State.deliverByte_phase, hi]
    split <;> omega
  simp only [State.stepsLeft, State.deliverByte_n, State.deliverByte_filled]
  omega

/-- An operation in progress has a step left. -/
theorem State.stepsLeft_pos (hbusy : s.phase ≠ .idle) : 0 < s.stepsLeft := by
  have hpos : 0 < s.iterationStepsLeft := by
    cases hi : s.phase with
    | idle => exact absurd hi hbusy
    | loop | drain =>
      simp only [State.iterationStepsLeft, hi]
      split <;> omega
    | wait p => cases p <;> simp [State.iterationStepsLeft, hi]
    | _ => simp [State.iterationStepsLeft, hi]
  rw [State.stepsLeft]
  omega

/-- A step that leaves `N` and `FILLED` alone lowers the measure by what it does inside the iteration. -/
theorem State.stepsLeft_lt_of_iteration (hn : t.n = s.n) (hf : t.filled = s.filled)
    (h : t.iterationStepsLeft < s.iterationStepsLeft) : t.stepsLeft < s.stepsLeft := by
  simp only [State.stepsLeft, hn, hf]
  omega

/-- Every step of an operation lowers the measure. -/
theorem State.Inv.stepsLeft_lt (h : s.Inv) (hbusy : s.phase ≠ .idle) (hstep : step s = .next t) :
    t.stepsLeft < s.stepsLeft := by
  cases step_cases hstep with
  | init w hp ho hi => exact absurd hi hbusy
  | read w hp ho hi hv => exact absurd hi hbusy
  | hold hp hi hh => exact absurd hi hbusy
  | request w rest hp hi hh => exact absurd hi hbusy
  | attach src rest hp hi hh => exact absurd hi hbusy
  | drainByte hp hi hs hr hc => exact State.deliverByte_stepsLeft_lt hi hs hr
  | loopOn hp hi hr =>
    refine State.stepsLeft_lt_of_iteration rfl rfl ?_
    simp only [State.iterationStepsLeft, hi, hr, and_true]
    split <;> omega
  | loopEnd hp hi hr =>
    refine State.stepsLeft_lt_of_iteration rfl rfl ?_
    simp only [State.iterationStepsLeft, hi]
    split <;> omega
  | drainFull hp hi hs he =>
    refine State.stepsLeft_lt_of_iteration rfl rfl ?_
    simp only [State.iterationStepsLeft, hi, if_neg hs]
    omega
  | abort p src hp hi ha =>
    refine State.stepsLeft_lt_of_iteration rfl rfl ?_
    cases p with
    | xBmp => simp [State.iterationStepsLeft, hi]
    | xLit => simp [State.iterationStepsLeft, hi, (h.of_waitLit hi).1]
    | xCpy => simp [State.iterationStepsLeft, hi, (h.of_waitCpy hi).1]
  | gotLit d src hp hi ha hc =>
    obtain ⟨hb, -, -⟩ := h.of_waitLit hi
    refine State.stepsLeft_lt_of_iteration rfl rfl ?_
    simp only [State.iterationStepsLeft, hi, State.commandDone_phase, State.commandDone_bit, State.emitByte_bit,
      State.answered_bit, bit_succ_toNat hb]
    omega
  | copyByte hp hi hx hc =>
    have hlen := h.len_le_of_copy hi
    have hlt : s.idx.toNat < s.len.toNat := hx
    have hidx : (s.idx + 1#5).toNat = s.idx.toNat + 1 := by bv_omega
    refine State.stepsLeft_lt_of_iteration rfl rfl ?_
    simp only [State.iterationStepsLeft, hi, State.emitByte_phase, State.emitByte_bit, hidx]
    omega
  | copyEnd hp hi hx =>
    obtain ⟨hb, -, -, -, -, -⟩ := h.of_copy hi
    have hidx : s.idx.toNat ≤ 18 := hx ▸ h.len_le_of_copy hi
    refine State.stepsLeft_lt_of_iteration rfl rfl ?_
    simp only [State.iterationStepsLeft, hi, State.commandDone_phase, State.commandDone_bit, bit_succ_toNat hb]
    omega
  | checkOn hp hi hf =>
    have hs : s.rd < s.fill := (h.settled_of_check hi).resolve_right fun hz => hf hz.1
    exact State.stepsLeft_lt_of_iteration rfl rfl (by simp [State.iterationStepsLeft, hi, hs])
  | gotCpy c0 c1 src hp hi ha =>
    obtain ⟨hb, -, -⟩ := h.of_waitCpy hi
    refine State.stepsLeft_lt_of_iteration rfl rfl ?_
    simp only [State.iterationStepsLeft, hi, State.answered_bit, BitVec.toNat_ofNat]
    omega
  | drainRun hp hi he => exact State.stepsLeft_lt_of_iteration rfl rfl (by simp [State.iterationStepsLeft, hi, he])
  | pullBmp hp hi | gotBmp _ _ hp hi | runDone hp hi | pullLit hp hi | pullCpy hp hi | checkEnd hp hi
  | ret hp hi =>
    exact State.stepsLeft_lt_of_iteration rfl rfl (by simp [State.iterationStepsLeft, hi])

/-- The sequencer leaves an empty port empty: only an idle core takes the host's input (R292). -/
theorem step_keeps_port_none (hp : s.port = none) (hbusy : s.phase ≠ .idle) (hstep : step s = .next t) :
    t.port = none := by
  cases step_cases hstep with
  | request w rest hp hi hh => exact absurd hi hbusy
  | init w hw => exact absurd (hp.symm.trans hw) nofun
  | read w hw => exact absurd (hp.symm.trans hw) nofun
  | _ => exact hp

end Measure

/-- Within `k` steps the core is idle, or a pull was not answered, or answered against the contract. -/
def State.EndsWithin (s : State) (k : Nat) : Prop :=
  ∃ j, j ≤ k ∧
    ((∃ u, steps j s = .next u ∧ u.phase = .idle) ∨ steps j s = .refused .pullUnanswered ∨
      steps j s = .refused .sourceContract)

theorem State.endsWithin_of_idle {s : State} (hi : s.phase = .idle) (k : Nat) : s.EndsWithin k :=
  ⟨0, Nat.zero_le _, .inl ⟨s, rfl, hi⟩⟩

theorem State.endsWithin_succ_of_step {s t : State} {k : Nat} (hstep : step s = .next t) (ht : t.EndsWithin k) :
    s.EndsWithin (k + 1) := by
  obtain ⟨j, hj, hend⟩ := ht
  refine ⟨j + 1, Nat.succ_le_succ hj, ?_⟩
  simpa only [steps_succ, hstep, andThen_next] using hend

theorem State.endsWithin_succ_of_refused {s : State} {r : Refusal} (k : Nat) (hstep : step s = .refused r)
    (hr : r = .pullUnanswered ∨ r = .sourceContract) : s.EndsWithin (k + 1) := by
  refine ⟨1, Nat.succ_le_succ (Nat.zero_le k), .inr ?_⟩
  simpa only [steps_succ, hstep, andThen_refused, Host.Outcome.refused.injEq] using hr

theorem State.EndsWithin.mono {s : State} {k m : Nat} (h : s.EndsWithin k) (hkm : k ≤ m) : s.EndsWithin m :=
  let ⟨j, hj, hend⟩ := h
  ⟨j, hj.trans hkm, hend⟩

/-- An operation in progress ends within the measure. -/
theorem State.Inv.endsWithin {s : State} (h : s.Inv) (hp : s.port = none) {k : Nat} (hk : s.stepsLeft ≤ k) :
    s.EndsWithin k := by
  by_cases hi : s.phase = .idle
  · exact State.endsWithin_of_idle hi k
  · induction k generalizing s with
    | zero => exact absurd (State.stepsLeft_pos hi) (Nat.not_lt_of_le hk)
    | succ k ih =>
      cases hstep : step s with
      | next t =>
        refine State.endsWithin_succ_of_step hstep ?_
        by_cases hti : t.phase = .idle
        · exact State.endsWithin_of_idle hti k
        · have hlt := h.stepsLeft_lt hi hstep
          exact ih (stepKeepsInvariant s t h hstep) (step_keeps_port_none hp hi hstep) (by omega) hti
      | fault f => exact absurd hstep (noStepFaults s f h)
      | refused r =>
        cases step_refused_cases hstep with
        | busy w hw => exact absurd (hp.symm.trans hw) nofun
        | readBeforeInit w hw => exact absurd (hp.symm.trans hw) nofun
        | pullUnanswered => exact State.endsWithin_succ_of_refused k hstep (.inl rfl)
        | sourceContract => exact State.endsWithin_succ_of_refused k hstep (.inr rfl)

/-- A `READ` that begins finds the core idle and initialised. -/
theorem exec_read_next {n : Nat} {s t : State} (h : exec (.read n) s = .next t) :
    s.phase = .idle ∧ s.valid = true ∧ t = { s.readStarted n with phase := .loop } := by
  by_cases hi : s.phase = .idle
  · cases hv : s.valid with
    | true => rw [exec_read n s hi hv] at h; cases h; exact ⟨hi, rfl, rfl⟩
    | false => rw [exec_read_uninitialised n s hi hv] at h; cases h
  · rw [exec_read_busy n s hi] at h; cases h

/-- A `READ` begins from its command word at the port, so its beginning keeps the invariant as that step does. -/
theorem State.Inv.readStarted {n : Nat} {s t : State} (h : s.Inv) (hp : s.port = none) (hread : exec (.read n) s = .next t) :
    t.Inv := by
  have hport : State.Inv { s with port := some ⟨1#1, n⟩ } := { h with }
  refine stepKeepsInvariant _ t hport ?_
  rw [step_of_port rfl, ← hread]
  cases s
  cases hp
  rfl

/-- Settles O49: at the beginning of `READ(n)` at most 175 n + 176 steps are left. -/
theorem readTerminates : Obligations.ReadTerminates := by
  intro s t n h hp hread
  have hinv : t.Inv := h.readStarted hp hread
  obtain ⟨-, -, rfl⟩ := exec_read_next hread
  refine hinv.endsWithin hp ?_
  simp only [State.stepsLeft, State.iterationStepsLeft, State.readStarted_n, State.readStarted_filled]
  split <;> omega

end Sys2Proof.Machine

/-! SUPPORT. What a `READ` shows outside: a run records no destination write, a drain is byte after byte delivered, and the loop
writes the destination in ascending order; the settlement of O47. -/

namespace Sys2Proof.Machine

theorem destWrites_append (es es' : List Event) : destWrites (es ++ es') = destWrites es ++ destWrites es' := by
  induction es with
  | nil => rfl
  | cons e es ih => cases e <;> simp [destWrites, ih]

/-! ### RUN -/

/-- From `s` to `t` the events `es` were recorded, none of them a destination write, and the registers and the destination of
the `READ` in progress were left alone. -/
structure State.Records (s t : State) (es : List Event) : Prop where
  trace : t.trace = s.trace ++ es
  noWrites : destWrites es = []
  n : t.n = s.n
  filled : t.filled = s.filled
  dest : t.dest = s.dest

theorem State.Records.after {s t u : State} {es es' : List Event} (h' : t.Records u es') (h : s.Records t es) :
    s.Records u (es ++ es') where
  trace := by rw [h'.trace, h.trace, List.append_assoc]
  noWrites := by rw [destWrites_append, h.noWrites, h'.noWrites, List.append_nil]
  n := h'.n.trans h.n
  filled := h'.filled.trans h.filled
  dest := h'.dest.trans h.dest

/-- A pull and its answer are two events. -/
theorem State.records_pull {s t : State} (k : Nat) (a : Answer) (ht : t.trace = s.trace ++ [.pull k] ++ [.answer a])
    (hn : t.n = s.n) (hf : t.filled = s.filled) (hd : t.dest = s.dest) : s.Records t [.pull k, .answer a] :=
  ⟨by simpa using ht, rfl, hn, hf, hd⟩

/-- The commands of a run record no destination write and unstage nothing; with a command to execute and nothing staged at the
end, the last event is the failed pull (R157). -/
theorem runCommands_records {k : Nat} {s t : State} (h : runCommands k s = .next t) (hcap : s.fill.toNat ≤ 144) :
    s.fill.toNat ≤ t.fill.toNat ∧
      ∃ es, s.Records t es ∧ (0 < k → t.fill.toNat = 0 → es.getLast? = some (.answer .fail)) := by
  induction k generalizing s with
  | zero =>
    cases h
    exact ⟨Nat.le_refl _, [], ⟨by simp, rfl, rfl, rfl, rfl⟩, fun h0 => absurd h0 (Nat.lt_irrefl 0)⟩
  | succ k ih =>
    cases runCommands_cases h with
    | noLiteral => exact ⟨Nat.le_refl _, _, State.records_pull 1 .fail rfl rfl rfl rfl, fun _ _ => rfl⟩
    | noOperand => exact ⟨Nat.le_refl _, _, State.records_pull 2 .fail rfl rfl rfl rfl, fun _ _ => rfl⟩
    | literal b src t hl ha hc hr =>
      have hfill := State.emitByte_fill_toNat (s := (s.record (.pull 1)).answered (.ok [b]) src) b hc
      obtain ⟨hle, es, hes, -⟩ := ih hr (hfill.trans_le hc)
      have hgrow : s.fill.toNat + 1 ≤ t.fill.toNat := hfill.ge.trans hle
      exact ⟨by omega, _, hes.after (State.records_pull 1 (.ok [b]) rfl rfl rfl rfl), fun _ h0 => by omega⟩
    | copy b0 b1 src u t hl ha hb hr =>
      obtain ⟨hroom, rfl⟩ := blockCopyFrom_next hb hcap
      have hfill := State.copied_fill_toNat _ (copyStart b0 b1) 0 _ hroom
      obtain ⟨hlen, -⟩ := copyLen_range b1
      obtain ⟨hle, es, hes, -⟩ := ih hr (hfill.trans_le hroom)
      have hgrow : s.fill.toNat + (copyLen b1).toNat ≤ t.fill.toNat := hfill.ge.trans hle
      exact ⟨by omega, _, hes.after (State.records_pull 2 (.ok [b0, b1]) (by simp) (by simp) (by simp) (by simp)),
        fun _ h0 => by omega⟩

/-- A run records no destination write, and when it stages nothing its last event is the failed pull (R157). -/
theorem runRun_records {s t : State} (h : runRun s = .next t) :
    ∃ es, s.Records t es ∧ (t.fill = 0#8 → es.getLast? = some (.answer .fail)) := by
  obtain ⟨src, ha, rfl⟩ | ⟨f, src, ha, hr⟩ := runRun_cases h
  · exact ⟨_, State.records_pull 1 .fail rfl rfl rfl rfl, fun _ => rfl⟩
  · obtain ⟨-, es, hes, hlast⟩ := runCommands_records hr (Nat.zero_le _)
    refine ⟨_, hes.after (State.records_pull 1 (.ok [f]) rfl rfl rfl rfl), fun hf => ?_⟩
    rw [List.getLast?_append, hlast (by decide) (by rw [hf]; rfl), Option.some_or]

/-! ### The drain, byte after byte -/

/-- `k` bytes delivered one after the other, as phase `DRAIN` does it (R214). -/
def State.deliveries (s : State) : Nat → State
  | 0 => s
  | k + 1 => (s.deliveries k).deliverByte

@[simp] theorem State.drainWrites_stage (s : State) (k : Nat) : (s.drainWrites k).stage = s.stage := by
  induction k with
  | zero => rfl
  | succ k ih => exact ih

@[simp] theorem State.deliveries_fill (s : State) (k : Nat) : (s.deliveries k).fill = s.fill := by
  induction k with
  | zero => rfl
  | succ k ih => exact ih

@[simp] theorem State.deliveries_filled (s : State) (k : Nat) : (s.deliveries k).filled = s.filled + k := by
  induction k with
  | zero => rfl
  | succ k ih => rw [State.deliveries, State.deliverByte_filled, ih, Nat.add_assoc]

/-- `RD` does not leave its range while the bytes delivered are staged (R25, R27). -/
theorem State.deliveries_rd_toNat (s : State) (k : Nat) (hk : s.rd.toNat + k ≤ s.fill.toNat) :
    (s.deliveries k).rd.toNat = s.rd.toNat + k := by
  induction k with
  | zero => rfl
  | succ k ih =>
    have hrd := ih (by omega)
    rw [State.deliveries, State.deliverByte_rd]
    bv_omega

/-- The writes of R180 step 1 with the cursors advanced are that many deliveries. -/
theorem State.drainWrites_eq_deliveries (s : State) (k : Nat) (hk : s.rd.toNat + k ≤ s.fill.toNat) :
    { s.drainWrites k with rd := s.rd + BitVec.ofNat 8 k, filled := s.filled + k } = s.deliveries k := by
  induction k with
  | zero => simp [State.drainWrites, State.deliveries]
  | succ k ih =>
    have hrd : (s.rd + BitVec.ofNat 8 k).toNat = s.rd.toNat + k := by bv_omega
    have hnext : s.rd + BitVec.ofNat 8 (k + 1) = s.rd + BitVec.ofNat 8 k + 1#8 := by bv_omega
    rw [State.deliveries, ← ih (by omega), State.drainWrites, State.deliverByte]
    simp only [State.destWrite, State.record, State.stageRead, State.drainWrites_stage, hrd, hnext, Nat.add_assoc]

/-- The bytes that one drain delivers (R183). -/
def State.drainCount (s : State) : Nat := min (s.fill.toNat - s.rd.toNat) (s.n - s.filled)

@[simp] theorem State.drain_filled (s : State) : s.drain.filled = s.filled + s.drainCount := rfl

/-- A drain delivers no more than is staged. -/
theorem State.rd_add_drainCount_le {s : State} (hle : s.rd ≤ s.fill) : s.rd.toNat + s.drainCount ≤ s.fill.toNat := by
  have hle' : s.rd.toNat ≤ s.fill.toNat := hle
  rw [State.drainCount]
  omega

theorem State.drain_eq_deliveries {s : State} (hle : s.rd ≤ s.fill) : s.drain = s.deliveries s.drainCount :=
  s.drainWrites_eq_deliveries s.drainCount (State.rd_add_drainCount_le hle)

theorem State.drain_fill {s : State} (hle : s.rd ≤ s.fill) : s.drain.fill = s.fill := by
  rw [State.drain_eq_deliveries hle, State.deliveries_fill]

theorem State.drain_rd_toNat {s : State} (hle : s.rd ≤ s.fill) : s.drain.rd.toNat = s.rd.toNat + s.drainCount := by
  rw [State.drain_eq_deliveries hle, State.deliveries_rd_toNat _ _ (State.rd_add_drainCount_le hle)]

/-- With a byte staged and room for it a drain delivers one. -/
theorem State.drainCount_pos {s : State} (hs : s.rd < s.fill) (hr : s.filled < s.n) : 0 < s.drainCount := by
  have hs' : s.rd.toNat < s.fill.toNat := hs
  rw [State.drainCount]
  omega

/-- A drain that leaves bytes staged has filled the destination. -/
theorem State.drainCount_of_staged {s : State} (hle : s.rd ≤ s.fill) (hs : s.drain.rd ≠ s.drain.fill) :
    s.drainCount = s.n - s.filled := by
  have hne : s.rd.toNat + s.drainCount ≠ s.fill.toNat := fun heq =>
    hs (BitVec.eq_of_toNat_eq (by rw [State.drain_rd_toNat hle, State.drain_fill hle, heq]))
  have hle' : s.rd.toNat ≤ s.fill.toNat := hle
  rw [State.drainCount] at hne ⊢
  omega

/-! ### READ -/

/-- A `READ(n)` in progress, with the events `es` since it began at the trace `base`: it has written the destination indices
below `FILLED`, in ascending order, and no others (R65, R66). -/
structure State.Reading (s : State) (n : Nat) (base es : List Event) : Prop where
  trace : s.trace = base ++ es
  writes : destWrites es = (List.range s.filled).map fun j => (j, (s.destRead j).getD 0#8)
  untouched : ∀ j, s.filled ≤ j → s.destRead j = none
  n_eq : s.n = n
  filled_le : s.filled ≤ n

section

variable {s t : State} {n : Nat} {base es : List Event}

theorem State.reading_readStarted (s : State) (n : Nat) : (s.readStarted n).Reading n s.trace [] where
  trace := (List.append_nil _).symm
  writes := rfl
  untouched := fun _ _ => rfl
  n_eq := rfl
  filled_le := Nat.zero_le n

/-- What writes no destination keeps it. -/
theorem State.Reading.records {es' : List Event} (h : s.Reading n base es) (hr : s.Records t es') :
    t.Reading n base (es ++ es') where
  trace := by rw [hr.trace, h.trace, List.append_assoc]
  writes := by
    rw [destWrites_append, hr.noWrites, List.append_nil, h.writes, hr.filled]
    simp only [State.destRead, hr.dest]
  untouched := by simpa only [State.destRead, hr.dest, hr.filled] using h.untouched
  n_eq := hr.n.trans h.n_eq
  filled_le := hr.filled.trans_le h.filled_le

/-- A delivery with room left writes the next index. -/
theorem State.Reading.deliverByte (h : s.Reading n base es) (hr : s.filled < n) :
    s.deliverByte.Reading n base (es ++ [.destWrite s.filled (s.stageRead s.rd.toNat)]) where
  trace := by rw [State.deliverByte_trace, h.trace, List.append_assoc]
  writes := by
    have hbelow : (List.range s.filled).map (fun j => (j, (s.deliverByte.destRead j).getD 0#8)) =
        (List.range s.filled).map fun j => (j, (s.destRead j).getD 0#8) :=
      List.map_congr_left fun j hj => by rw [State.destRead_deliverByte, if_neg (List.mem_range.mp hj).ne']
    rw [destWrites_append, h.writes, State.deliverByte_filled, List.range_succ, List.map_append, hbelow]
    simp [destWrites, State.destRead_deliverByte]
  untouched := fun j hj => by
    rw [State.deliverByte_filled] at hj
    rw [State.destRead_deliverByte, if_neg (by omega), h.untouched j (by omega)]
  n_eq := h.n_eq
  filled_le := hr

theorem State.Reading.deliveries (h : s.Reading n base es) (k : Nat) (hk : s.filled + k ≤ n) :
    ∃ es', (s.deliveries k).Reading n base es' := by
  induction k with
  | zero => exact ⟨es, h⟩
  | succ k ih =>
    obtain ⟨es', h'⟩ := ih (by omega)
    exact ⟨_, h'.deliverByte (by rw [State.deliveries_filled]; omega)⟩

theorem State.Reading.drain (h : s.Reading n base es) (hle : s.rd ≤ s.fill) :
    ∃ es', s.drain.Reading n base es' := by
  rw [State.drain_eq_deliveries hle]
  refine h.deliveries s.drainCount ?_
  have hcount : s.drainCount ≤ s.n - s.filled := Nat.min_le_right _ _
  have hn := h.n_eq
  have hfilled := h.filled_le
  omega

/-- How a `READ` may end: full, or short after a run that staged nothing because a pull failed (R186). -/
structure State.ReadEnd (s : State) (n : Nat) (base es : List Event) : Prop extends s.Reading n base es where
  short : s.filled < n → s.fill = 0#8 ∧ s.rd = 0#8 ∧ es.getLast? = some (.answer .fail)

theorem State.Reading.readEnd_of_full (h : s.Reading n base es) (hf : s.filled = n) : s.ReadEnd n base es :=
  { h with short := fun hlt => absurd hf hlt.ne }

/-- After a run, and `RD` back at 0: when the run staged nothing the `READ` may end there (R184, R185). -/
theorem State.Reading.afterRun (h : s.Reading n base es) (hrun : runRun s = .next t) :
    ∃ es', State.Reading { t with rd := 0#8 } n base es' ∧ t.filled = s.filled ∧
      (t.fill = 0#8 → State.ReadEnd { t with rd := 0#8 } n base es') := by
  obtain ⟨es', hrec, hlast⟩ := runRun_records hrun
  have hnext : State.Reading { t with rd := 0#8 } n base (es ++ es') := h.records { hrec with }
  refine ⟨_, hnext, hrec.filled, fun hz => { hnext with short := fun _ => ⟨hz, rfl, ?_⟩ }⟩
  rw [List.getLast?_append, hlast hz, Option.some_or]

/-- Fuel for every iteration of the loop: each delivers a byte, but for a first one with nothing staged (R191). -/
def State.FuelFor (s : State) (n fuel : Nat) : Prop :=
  n - s.filled < fuel ∨ (s.rd < s.fill ∧ n - s.filled ≤ fuel)

theorem State.Reading.fuel_after_drain {fuel : Nat} (h : s.Reading n base es) (hfuel : s.FuelFor n (fuel + 1))
    (hroom : s.filled < s.n) : n - s.drain.filled ≤ fuel := by
  have hn := h.n_eq
  rw [State.drain_filled]
  rcases hfuel with hlt | ⟨hs, hle⟩
  · omega
  · have hpos := State.drainCount_pos hs hroom
    omega

/-- The loop ends as a `READ` may end. -/
theorem State.Reading.readLoop {fuel : Nat} (h : s.Reading n base es) (hle : s.rd ≤ s.fill) (hfuel : s.FuelFor n fuel)
    (hloop : readLoop fuel s = .next t) : ∃ es', t.ReadEnd n base es' := by
  induction fuel generalizing s es with
  | zero =>
    cases hloop
    refine ⟨es, h.readEnd_of_full (Nat.le_antisymm h.filled_le ?_)⟩
    rcases hfuel with hlt | ⟨-, hle⟩ <;> omega
  | succ fuel ih =>
    by_cases hroom : s.filled < s.n
    · rw [readLoop_of_room fuel hroom] at hloop
      obtain ⟨v, hv, hloop⟩ := andThen_eq_next hloop
      obtain ⟨es₁, hdrain⟩ := h.drain hle
      by_cases hs : s.drain.rd = s.drain.fill
      · rw [refill_of_drained hs] at hv
        obtain ⟨w, hw, hv⟩ := andThen_eq_next hv
        cases hv
        obtain ⟨es₂, hnext, hfilled, hend⟩ := hdrain.afterRun hw
        split at hloop
        · rename_i hzero
          cases hloop
          exact ⟨es₂, hend hzero⟩
        · rename_i hstaged
          have hset : State.Settled { w with rd := 0#8 } := State.settled_of_rd_zero rfl
          have hfuel' : n - w.filled ≤ fuel := hfilled ▸ h.fuel_after_drain hfuel hroom
          exact ih hnext hset.rd_le_fill (.inr ⟨hset.resolve_right fun hz => hstaged hz.1, hfuel'⟩) hloop
      · rw [refill_of_staged hs] at hv
        cases hv
        have hfull : s.drain.filled = n := by
          rw [State.drain_filled, State.drainCount_of_staged hle hs, ← h.n_eq]
          omega
        rw [readLoop_of_full fuel (by rw [hfull, hdrain.n_eq]; exact Nat.lt_irrefl n), ite_self] at hloop
        cases hloop
        exact ⟨es₁, hdrain.readEnd_of_full hfull⟩
    · rw [readLoop_of_full _ hroom] at hloop
      cases hloop
      rw [h.n_eq] at hroom
      exact ⟨es, h.readEnd_of_full (Nat.le_antisymm h.filled_le (Nat.le_of_not_lt hroom))⟩

end

/-- Settles O47: the loop starts with fuel for every iteration, and the return adds its own event. -/
theorem readResult : Obligations.ReadResult := by
  intro s t n hinv hi hv hread
  obtain ⟨u, hloop, hret⟩ := andThen_eq_next hread
  cases hret
  have hle : (s.readStarted n).rd ≤ (s.readStarted n).fill := (hinv.settled_of_idle hi).rd_le_fill
  obtain ⟨es, hend⟩ := (s.reading_readStarted n).readLoop hle (.inl (Nat.lt_succ_self n)) hloop
  refine ⟨hend.filled_le, es, ?_, ?_, ?_, hend.untouched, hend.short⟩
  · rw [State.readReturned_trace, hend.trace]
    rfl
  · simp [hend.writes, Function.comp_def]
  · simp [hend.writes, Function.comp_def, State.deliveredBytes, State.destRead]

end Sys2Proof.Machine

/-! SUPPORT. The encoding: the decoder on every instruction's code and on every byte string, the operand of a copy in both
directions, and the length of a run; the settlements of O1 to O6. -/

namespace Sys2Proof

/-! ### Decoding -/

theorem decode_encode {i : Instr} (h : i.wellFormed = true) : decode (encode i) = .ok i := by
  cases i with
  | bmp f => exact decode_bmp f
  | lit d => exact decode_lit d
  | cpy start len =>
    obtain ⟨h3, h18⟩ : 3 ≤ len.toNat ∧ len.toNat ≤ 18 := by simpa [Instr.wellFormed] using h
    rw [encode, decode_cpy, copyStart_copyBytes start len h3 h18, copyLen_copyBytes start len h3 h18]
  | init => rfl
  | read n => rfl

/-- Settles O1: instruction by instruction; a copy is put together again by R97 and R96. -/
theorem decodeOfEncode : Obligations.DecodeOfEncode := fun _ => decode_encode

/-- What the stream decoder reads is well-formed, and is encoded by the bytes it was read from (R98). -/
theorem encode_decode_stream {p : PullPoint} {bytes : List Byte} {i : Instr} (h : decode (.stream p bytes) = .ok i) :
    i.wellFormed = true ∧ encode i = .stream p bytes := by
  obtain ⟨f, rfl, rfl, rfl⟩ | ⟨d, rfl, rfl, rfl⟩ | ⟨c0, c1, rfl, rfl, rfl⟩ := decode_stream_ok h
  · exact ⟨rfl, rfl⟩
  · exact ⟨rfl, rfl⟩
  · obtain ⟨e0, e1⟩ := copyBytes_decoded c0 c1
    refine ⟨?_, by rw [encode, e0, e1]⟩
    simpa [Instr.wellFormed] using copyLen_range c1

theorem length_of_decode_stream {p : PullPoint} {bytes : List Byte} {i : Instr}
    (h : decode (.stream p bytes) = .ok i) : bytes.length = p.count := by
  obtain ⟨f, rfl, rfl, rfl⟩ | ⟨d, rfl, rfl, rfl⟩ | ⟨c0, c1, rfl, rfl, rfl⟩ := decode_stream_ok h <;> rfl

theorem decode_stream_of_length_ne {p : PullPoint} {bytes : List Byte} (h : bytes.length ≠ p.count) :
    decode (.stream p bytes) = .error (if bytes.length < p.count then .tooFewBytes else .tooManyBytes) := by
  cases hd : decode (.stream p bytes) with
  | ok i => exact absurd (length_of_decode_stream hd) h
  | error r => rw [(decode_stream_error hd).2]

/-- Settles O2: the decoder rejects only by length, and what it reads re-encodes to the bytes read. -/
theorem streamDecodeIsTotalAndExact : Obligations.StreamDecodeIsTotalAndExact := by
  refine fun p bytes => ⟨fun hlen => ?_, fun hlt => ?_, fun hgt => ?_⟩
  · cases hd : decode (.stream p bytes) with
    | ok i => exact ⟨i, rfl, encode_decode_stream hd⟩
    | error r => exact absurd hlen (decode_stream_error hd).1
  · rw [decode_stream_of_length_ne hlt.ne, if_pos hlt]
  · rw [decode_stream_of_length_ne hgt.ne', if_neg hgt.not_gt]

/-! ### The operand of a copy -/

/-- `START` by the masks and the shift of R96; nothing of the assembly is lost in its 12 bits. -/
theorem copyStart_toNat_masks (c0 c1 : Byte) :
    (copyStart c0 c1).toNat = (((c1.toNat &&& 0xF0) <<< 4) ||| c0.toNat) := by
  have h1 : c1.toNat < 256 := c1.isLt
  have hhigh : (c1.toNat &&& 0xF0) <<< 4 < 2 ^ 12 := by
    rw [Machine.and_F0, Nat.shiftLeft_eq]; omega
  have hlow : c0.toNat < 2 ^ 12 := c0.isLt.trans (by decide)
  rw [← Machine.copyStart_formula, BitVec.toNat_ofNat, Nat.mod_eq_of_lt (Nat.or_lt_two_pow hhigh hlow)]

/-- Settles O3: the decoder's operands, in both spellings. -/
theorem copyOperandAssembly : Obligations.CopyOperandAssembly := fun c0 c1 =>
  ⟨copyStart c0 c1, copyLen c1, decode_cpy c0 c1, copyStart_toNat_masks c0 c1, copyStart_toNat c0 c1,
    (Machine.copyLen_formula c1).symm, Nat.le_of_lt_succ (copyStart c0 c1).isLt, (copyLen_range c1).1,
    (copyLen_range c1).2, decode_lit c0⟩

/-- The first operand byte of a copy by the mask of R97. -/
theorem copyByte0_toNat_mask (start : RingIndex) : (copyByte0 start).toNat = (start.toNat &&& 0xFF) := by
  rw [copyByte0_toNat]
  exact (Nat.and_two_pow_sub_one_eq_mod start.toNat 8).symm

/-- The second operand byte of a copy by the masks and the shift of R97; the two halves fit its 8 bits. -/
theorem copyByte1_toNat_masks (start : RingIndex) {len : CopyCount} (h18 : len.toNat ≤ 18) :
    (copyByte1 start len).toNat = (((start.toNat >>> 4) &&& 0xF0) ||| (len.toNat - 3)) := by
  have hhigh : (start.toNat >>> 4) &&& 0xF0 < 2 ^ 8 := Nat.and_lt_two_pow _ (by decide)
  have hlow : len.toNat - 3 < 2 ^ 8 := by omega
  rw [copyByte1, BitVec.toNat_ofNat]
  exact Nat.mod_eq_of_lt (Nat.or_lt_two_pow hhigh hlow)

/-- Settles O4: the two bytes by R97, and its three examples computed. -/
theorem copyOperandEncoding : Obligations.CopyOperandEncoding :=
  ⟨fun start len _ h18 =>
      ⟨copyByte0 start, copyByte1 start len, rfl, copyByte0_toNat_mask start, copyByte1_toNat_masks start h18⟩,
    by decide, by decide, by decide⟩

/-- Settles O6: each word decodes by its format; the operands of the two copies are computed. -/
theorem wordsOfTheFormats : Obligations.WordsOfTheFormats :=
  ⟨decode_bmp _, decode_lit _, by decide, by decide, decode_host _, decode_host _⟩

/-! ### The length of a run -/

/-- The operand bytes of command i of a run: one for a literal, two for a copy (R90, R93). -/
def commandBytes (f : Byte) (i : Nat) : Nat := if f.getLsbD i then 1 else 2

theorem commandBytes_of_literal {f : Byte} {i : Nat} (h : f.getLsbD i = true) : commandBytes f i = 1 := if_pos h

theorem commandBytes_of_copy {f : Byte} {i : Nat} (h : f.getLsbD i = false) : commandBytes f i = 2 := by
  rw [commandBytes, h, if_neg Bool.false_ne_true]

/-- The operand bytes of the last `k` commands of a run (R93). -/
def operandBytes (f : Byte) : Nat → Nat
  | 0 => 0
  | k + 1 => commandBytes f (8 - (k + 1)) + operandBytes f k

/-- Each literal among the last `k` commands saves one of the two bytes of a copy. -/
theorem operandBytes_add_literals (f : Byte) (k : Nat) :
    operandBytes f k + (List.range k).countP (fun i => f.getLsbD (8 - (i + 1))) = 2 * k := by
  induction k with
  | zero => rfl
  | succ k ih =>
    rw [operandBytes, List.range_succ, List.countP_append, List.countP_singleton]
    cases hl : f.getLsbD (8 - (k + 1)) with
    | true => rw [commandBytes_of_literal hl, if_pos rfl]; omega
    | false => rw [commandBytes_of_copy hl, if_neg Bool.false_ne_true]; omega

/-- The literals of a run, counted from its last command back. -/
theorem popcount_eq_countP (f : Byte) : popcount f = (List.range 8).countP (fun i => f.getLsbD (8 - (i + 1))) := by
  have hrev : List.range 8 = ((List.range 8).map fun i => 8 - (i + 1)).reverse := by decide
  calc popcount f = (List.range 8).countP f.getLsbD := List.countP_eq_length_filter.symm
    _ = ((List.range 8).map fun i => 8 - (i + 1)).countP f.getLsbD :=
      (congrArg (List.countP f.getLsbD) hrev).trans List.countP_reverse
    _ = _ := List.countP_map

/-- A complete run has its bitmap and 16 - popcount(f) operand bytes; with eight commands at most eight are literals. -/
theorem operandBytes_eight (f : Byte) : operandBytes f 8 = 16 - popcount f ∧ popcount f ≤ 8 := by
  have hsum := operandBytes_add_literals f 8
  rw [← popcount_eq_countP] at hsum
  exact ⟨by omega, List.length_filter_le _ _⟩

/-- The bytes of a complete run (R93). -/
theorem one_add_operandBytes_eight (f : Byte) : 1 + operandBytes f 8 = 17 - popcount f := by
  obtain ⟨hbytes, hpop⟩ := operandBytes_eight f
  omega

theorem decodeCommands_literal {f : Byte} {k : Nat} (h : f.getLsbD (8 - (k + 1)) = true) (d : Byte) (rest : List Byte) :
    decodeCommands f (k + 1) (d :: rest) = (.lit d :: (decodeCommands f k rest).1, (decodeCommands f k rest).2) := by
  rw [decodeCommands, if_pos h]

theorem decodeCommands_copy {f : Byte} {k : Nat} (h : f.getLsbD (8 - (k + 1)) = false) (c0 c1 : Byte)
    (rest : List Byte) :
    decodeCommands f (k + 1) (c0 :: c1 :: rest) =
      (.cpy (copyStart c0 c1) (copyLen c1) :: (decodeCommands f k rest).1, (decodeCommands f k rest).2) := by
  rw [decodeCommands, if_neg (Bool.not_eq_true _ ▸ h)]

/-- Without its operand the next command is not read, nor any after it (R99). -/
theorem decodeCommands_short {f : Byte} {k : Nat} {bytes : List Byte}
    (h : bytes.length < commandBytes f (8 - (k + 1))) : decodeCommands f (k + 1) bytes = ([], bytes) := by
  cases hl : f.getLsbD (8 - (k + 1)) with
  | true =>
    rw [commandBytes_of_literal hl] at h
    match bytes, h with
    | [], _ => rw [decodeCommands, if_pos hl]
  | false =>
    rw [commandBytes_of_copy hl] at h
    match bytes, h with
    | [], _ | [_], _ => rw [decodeCommands, if_neg (Bool.not_eq_true _ ▸ hl)]

/-- The last `k` commands of a run are all read exactly when their operand bytes are there, and then these are the bytes
taken (R93). -/
theorem decodeCommands_length (f : Byte) (k : Nat) (bytes : List Byte) :
    ((decodeCommands f k bytes).1.length = k ↔ operandBytes f k ≤ bytes.length) ∧
      ((decodeCommands f k bytes).1.length = k →
        bytes.length = operandBytes f k + (decodeCommands f k bytes).2.length) := by
  induction k generalizing bytes with
  | zero => simp [decodeCommands, operandBytes]
  | succ k ih =>
    rw [operandBytes]
    rcases Nat.lt_or_ge bytes.length (commandBytes f (8 - (k + 1))) with hshort | henough
    · rw [decodeCommands_short hshort, List.length_nil]
      omega
    · cases hl : f.getLsbD (8 - (k + 1)) with
      | true =>
        rw [commandBytes_of_literal hl] at henough ⊢
        match bytes, henough with
        | d :: rest, _ =>
          obtain ⟨hiff, hlen⟩ := ih rest
          rw [decodeCommands_literal hl]
          simp only [List.length_cons]
          omega
      | false =>
        rw [commandBytes_of_copy hl] at henough ⊢
        match bytes, henough with
        | c0 :: c1 :: rest, _ =>
          obtain ⟨hiff, hlen⟩ := ih rest
          rw [decodeCommands_copy hl]
          simp only [List.length_cons]
          omega

/-- Settles O5: the eight commands and the bitmap before them. -/
theorem runLengthInStreamBytes : Obligations.RunLengthInStreamBytes := by
  intro f bytes rest cmds hrun
  have hcmds : decodeCommands f 8 bytes = (cmds, rest) := by simpa [decodeRun] using hrun
  obtain ⟨hiff, hlen⟩ := decodeCommands_length f 8 bytes
  obtain ⟨hbytes, hpop⟩ := operandBytes_eight f
  rw [hcmds] at hiff hlen
  simp only [List.length_cons] at hiff hlen ⊢
  omega

end Sys2Proof

/-! SUPPORT. The meaning of a pulled command and of a bitmap; the settlements of O8 and O14. -/

namespace Sys2Proof.Machine

/-- Settles O8: in `WAIT` the answered bytes are decoded and run. -/
theorem stepRunsThePulledCommand : Obligations.StepRunsThePulledCommand := by
  intro s p bytes src i hp hi hq hd
  rw [step_of_wait hp hi, stepWait, hq]
  simp only [runCode, hd]
  rfl

/-- Settles O14: the meaning of `BMP` written out. -/
theorem bitmapEffect : Obligations.BitmapEffect := exec_bmp

end Sys2Proof.Machine

/-! SUPPORT. The pulls a run records: one for the bitmap and one for each command, up to the first that fails; the settlement
of O46. -/

namespace Sys2Proof.Machine

/-- Events that record `m` pulls of `total` bytes, each answered, or fewer of them, of which only the last failed (R159). -/
inductive PullsRecorded (m total : Nat) : List Event → Prop where
  | complete {es : List Event} (hok : Event.answer .fail ∉ es) (hlen : (pullCounts es).length = m)
      (hsum : (pullCounts es).sum = total) : PullsRecorded m total es
  | aborted (es : List Event) (hok : Event.answer .fail ∉ es) (hpos : 1 ≤ (pullCounts es).length)
      (hle : (pullCounts es).length ≤ m) : PullsRecorded m total (es ++ [.answer .fail])

@[simp] theorem pullCounts_append_answer (es : List Event) (a : Answer) :
    pullCounts (es ++ [.answer a]) = pullCounts es := by
  induction es with
  | nil => rfl
  | cons e es ih => cases e <;> simp [pullCounts, ih]

theorem PullsRecorded.none : PullsRecorded 0 0 [] := .complete (by simp) rfl rfl

theorem PullsRecorded.failed (m total k : Nat) : PullsRecorded (m + 1) total [.pull k, .answer .fail] :=
  .aborted [.pull k] (by simp) (Nat.le_refl 1) (Nat.le_add_left 1 m)

/-- One more pull in front, answered with bytes. -/
theorem PullsRecorded.answered {m total : Nat} {es : List Event} (h : PullsRecorded m total es) (k : Nat)
    (bytes : List Byte) : PullsRecorded (m + 1) (k + total) (.pull k :: .answer (.ok bytes) :: es) := by
  cases h with
  | complete hok hlen hsum =>
    exact .complete (by simpa using hok) (by simp [pullCounts, hlen]) (by simp [pullCounts, hsum])
  | aborted es hok hpos hle =>
    exact .aborted (.pull k :: .answer (.ok bytes) :: es) (by simpa using hok) (by simp [pullCounts])
      (by simpa [pullCounts] using hle)

theorem PullsRecorded.of_not_failed {m total : Nat} {es : List Event} (h : PullsRecorded m total es)
    (hlast : es.getLast? ≠ some (.answer .fail)) :
    (pullCounts es).length = m ∧ (pullCounts es).sum = total ∧ Event.answer .fail ∉ es := by
  cases h with
  | complete hok hlen hsum => exact ⟨hlen, hsum, hok⟩
  | aborted es => simp at hlast

theorem PullsRecorded.of_failed {m total : Nat} {es : List Event} (h : PullsRecorded m total es)
    (hlast : es.getLast? = some (.answer .fail)) :
    1 ≤ (pullCounts es).length ∧ (pullCounts es).length ≤ m ∧ Event.answer .fail ∉ es.dropLast := by
  cases h with
  | complete hok => exact absurd (List.mem_of_getLast? hlast) hok
  | aborted es hok hpos hle => simpa using ⟨hpos, hle, hok⟩

/-- The last `k` commands of a run leave the bitmap alone and record a pull each, as many bytes as their operands have. -/
theorem runCommands_pulls {k : Nat} {s t : State} (h : runCommands k s = .next t) (hcap : s.fill.toNat ≤ 144)
    (hbit : s.bit.toNat + k = 8) :
    t.bmp = s.bmp ∧ ∃ es, t.trace = s.trace ++ es ∧ PullsRecorded k (operandBytes s.bmp k) es := by
  induction k generalizing s with
  | zero =>
    cases h
    exact ⟨rfl, [], by simp, .none⟩
  | succ k ih =>
    have hnext : (s.bit + 1#4).toNat + k = 8 := by rw [bit_succ_toNat (by omega)]; omega
    have hsel : s.bmp.getLsbD (8 - (k + 1)) = s.literalNext := by rw [State.literalNext]; congr 1; omega
    cases runCommands_cases h with
    | noLiteral => exact ⟨rfl, _, by simp, .failed k _ 1⟩
    | noOperand => exact ⟨rfl, _, by simp, .failed k _ 2⟩
    | literal b src t hl ha hc hr =>
      have hfill := State.emitByte_fill_toNat (s := (s.record (.pull 1)).answered (.ok [b]) src) b hc
      obtain ⟨hbmp, es, hes, hpulls⟩ := ih hr (hfill.trans_le hc) hnext
      rw [operandBytes, commandBytes_of_literal (hsel.trans hl)]
      exact ⟨hbmp, _, by simpa using hes, hpulls.answered 1 [b]⟩
    | copy b0 b1 src u t hl ha hb hr =>
      obtain ⟨hroom, rfl⟩ := blockCopyFrom_next hb hcap
      have hfill := State.copied_fill_toNat _ (copyStart b0 b1) 0 _ hroom
      obtain ⟨hbmp, es, hes, hpulls⟩ := ih hr (hfill.trans_le hroom) (by simpa using hnext)
      rw [operandBytes, commandBytes_of_copy (hsel.trans hl)]
      exact ⟨by simpa using hbmp, _, by simpa using hes, by simpa using hpulls.answered 2 [b0, b1]⟩

/-- The pulls of a run: the bitmap's and those of its eight commands (R159). -/
theorem runRun_pulls {s t : State} (h : runRun s = .next t) :
    ∃ es, t.trace = s.trace ++ es ∧ PullsRecorded 9 (17 - popcount t.bmp) es := by
  obtain ⟨src, ha, rfl⟩ | ⟨f, src, ha, hr⟩ := runRun_cases h
  · exact ⟨_, by simp, .failed 8 _ 1⟩
  · obtain ⟨hbmp, es, hes, hpulls⟩ := runCommands_pulls hr (Nat.zero_le _) rfl
    rw [hbmp, ← one_add_operandBytes_eight]
    exact ⟨_, by simpa using hes, hpulls.answered 1 [f]⟩

/-- Settles O46: the pulls of a run, told apart by the last event. -/
theorem pullsOfARun : Obligations.PullsOfARun := by
  intro s t hrun
  obtain ⟨es, hes, hpulls⟩ := runRun_pulls hrun
  exact ⟨es, hes, hpulls.of_not_failed, hpulls.of_failed⟩

end Sys2Proof.Machine

/-! SUPPORT. Runs of literals under `STREAM(S)`: what is left of the source, command by command and run by run; the
settlement of O51. -/

namespace Sys2Proof.Machine

/-! ### What the source has still to deliver -/

/-- The source is `STREAM(S)` with exactly `rest` not yet pulled (R62). -/
inductive Source.Holds : Source → List Byte → Prop where
  | stream (pulled rest : List Byte) (spend : Bool) :
      Source.Holds (.stream (pulled ++ rest) pulled.length spend) rest

/-- A byte left is pulled. -/
theorem Source.Holds.pull_one {src : Source} {b : Byte} {rest : List Byte} (h : src.Holds (b :: rest)) :
    ∃ src', src.pull 1 = some (.ok [b], src') ∧ src'.Holds rest := by
  cases h with
  | stream pulled _ spend =>
    refine ⟨.stream (pulled ++ b :: rest) (pulled.length + 1) spend, ?_, ?_⟩
    · rw [Source.pull_stream_enough spend (by simp), List.drop_left]
      rfl
    · simpa using Source.Holds.stream (pulled ++ [b]) rest spend

/-- With nothing left a pull of a byte fails, and nothing is left. -/
theorem Source.Holds.pull_none {src : Source} (h : src.Holds []) :
    ∃ src', src.pull 1 = some (.fail, src') ∧ src'.Holds [] := by
  cases h with
  | stream pulled _ spend =>
    have hpos : (if spend then (pulled ++ []).length else pulled.length) = pulled.length := by simp
    refine ⟨_, Source.pull_stream_short spend (by simp), ?_⟩
    rw [hpos]
    exact .stream pulled [] spend

/-! ### What is staged -/

@[simp] theorem State.length_stagedBytes (s : State) : s.stagedBytes.length = s.fill.toNat := by
  simp [State.stagedBytes]

/-- An `EMIT` puts its byte behind those already staged (R130). -/
theorem State.stagedBytes_emitByte {s : State} (b : Byte) (h : s.fill.toNat < 144) :
    (s.emitByte b).stagedBytes = s.stagedBytes ++ [b] := by
  have hold : (List.range s.fill.toNat).map (s.emitByte b).stageRead = s.stagedBytes :=
    List.map_congr_left fun k hk => by rw [State.stageRead_emitByte, if_neg (List.mem_range.mp hk).ne']
  have hnew : (s.emitByte b).stageRead s.fill.toNat = b := by rw [State.stageRead_emitByte, if_pos rfl]
  rw [State.stagedBytes, s.emitByte_fill_toNat b h, List.range_succ, List.map_append, hold, List.map_singleton, hnew]

/-! ### A run of literals -/

/-- The state after a literal's pull and its `EMIT`, at the next command (R153). -/
def State.literalTaken (s : State) (b : Byte) (src : Source) : State :=
  { ((s.record (.pull 1)).answered (.ok [b]) src).emitByte b with bit := s.bit + 1#4 }

theorem runCommands_of_literal {s : State} {b : Byte} {src : Source} (k : Nat) (hl : s.literalNext = true)
    (ha : s.source.pull 1 = some (.ok [b], src)) (hc : s.fill.toNat < 144) :
    runCommands (k + 1) s = runCommands k (s.literalTaken b src) := by
  have hemit := State.emit_eq (s := (s.record (.pull 1)).answered (.ok [b]) src) b hc
  rw [runCommands, if_pos hl, State.pullNow_of_some ha]
  simp only [hemit, andThen_next]
  rfl

theorem runCommands_of_noLiteral {s : State} {src : Source} (k : Nat) (hl : s.literalNext = true)
    (ha : s.source.pull 1 = some (.fail, src)) :
    runCommands (k + 1) s = .next ((s.record (.pull 1)).answered .fail src) := by
  rw [runCommands, if_pos hl, State.pullNow_of_some ha]

/-- The state after a run's bitmap has been pulled, at command 0 (R151). -/
def State.bitmapTaken (s : State) (f : Byte) (src : Source) : State :=
  { (s.runStarted.record (.pull 1)).answered (.ok [f]) src with bmp := f, bit := 0#4 }

theorem runRun_of_bitmap {s : State} {f : Byte} {src : Source} (ha : s.source.pull 1 = some (.ok [f], src)) :
    runRun s = runCommands 8 (s.bitmapTaken f src) := by
  rw [runRun, State.pullNow_of_some (s := s.runStarted) ha]
  rfl

theorem runRun_of_noBitmap {s : State} {src : Source} (ha : s.source.pull 1 = some (.fail, src)) :
    runRun s = .next ((s.runStarted.record (.pull 1)).answered .fail src) := by
  rw [runRun, State.pullNow_of_some (s := s.runStarted) ha]

/-- In a run of the bitmap 0xFF every command is a literal (R90). -/
theorem State.literalNext_of_allOnes {s : State} (hf : s.bmp = 0xFF#8) (hb : s.bit.toNat < 8) : s.literalNext = true := by
  rw [State.literalNext, hf]
  exact (BitVec.getLsbD_allOnes (v := 8)).trans (decide_eq_true hb)

/-- The last `k` commands of a run of literals stage their bytes, up to where the source ends. -/
theorem runCommands_literals {k : Nat} {s : State} {ds rest : List Byte} (hf : s.bmp = 0xFF#8)
    (hbit : s.bit.toNat + k = 8) (hroom : s.fill.toNat + k ≤ 144) (hsrc : s.source.Holds (ds ++ rest))
    (hds : ds.length = k ∨ (ds.length < k ∧ rest = [])) :
    ∃ t, runCommands k s = .next t ∧ t.source.Holds rest ∧ t.stagedBytes = s.stagedBytes ++ ds := by
  induction k generalizing s ds with
  | zero =>
    obtain rfl : ds = [] := by simpa using hds
    exact ⟨s, rfl, hsrc, by simp⟩
  | succ k ih =>
    have hl : s.literalNext = true := State.literalNext_of_allOnes hf (by omega)
    cases ds with
    | nil =>
      obtain rfl : rest = [] := by simpa using hds
      obtain ⟨src, ha, hrest⟩ := hsrc.pull_none
      exact ⟨_, runCommands_of_noLiteral k hl ha, hrest, by simp; rfl⟩
    | cons d ds =>
      obtain ⟨src, ha, hrest⟩ := hsrc.pull_one
      have hc : s.fill.toNat < 144 := by omega
      have hfill : (s.literalTaken d src).fill.toNat = s.fill.toNat + 1 := State.emitByte_fill_toNat d hc
      have hnext : (s.literalTaken d src).bit.toNat = s.bit.toNat + 1 := bit_succ_toNat (by omega)
      have hstaged : (s.literalTaken d src).stagedBytes = s.stagedBytes ++ [d] := State.stagedBytes_emitByte d hc
      obtain ⟨t, hrun, hleft, hbytes⟩ :=
        ih (s := s.literalTaken d src) (ds := ds) hf (by omega) (by omega) hrest (by simpa using hds)
      refine ⟨t, (runCommands_of_literal k hl ha hc).trans hrun, hleft, ?_⟩
      rw [hbytes, hstaged, List.append_assoc, List.singleton_append]

/-- A run of literals stages its bytes, all eight or as many as there are (R153, R154). -/
theorem runRun_literals {s : State} {ds rest : List Byte} (hsrc : s.source.Holds (0xFF#8 :: (ds ++ rest)))
    (hds : ds.length = 8 ∨ (ds.length < 8 ∧ rest = [])) :
    ∃ t, runRun s = .next t ∧ t.source.Holds rest ∧ t.stagedBytes = ds := by
  obtain ⟨src, ha, hrest⟩ := hsrc.pull_one
  rw [runRun_of_bitmap ha]
  exact runCommands_literals (s := s.bitmapTaken 0xFF#8 src) rfl rfl (by simp [State.bitmapTaken]) hrest hds

/-! ### Run after run -/

theorem decodedFrom_of_staged {s t : State} (fuel : Nat) (hrun : runRun s = .next t) (hne : t.stagedBytes ≠ []) :
    decodedFrom (fuel + 1) s = t.stagedBytes ++ decodedFrom fuel t := by
  have hfill : t.fill ≠ 0#8 := fun h => hne (by rw [State.stagedBytes, h]; rfl)
  simp [decodedFrom, hrun, State.nothingProduced, hfill]

theorem decodedFrom_of_nothing {s t : State} (fuel : Nat) (hrun : runRun s = .next t) (hfill : t.fill = 0#8) :
    decodedFrom (fuel + 1) s = [] := by
  simp [decodedFrom, hrun, State.nothingProduced, hfill]

/-- With nothing left of the source nothing more is decoded (R193). -/
theorem decodedFrom_of_exhausted {s : State} (fuel : Nat) (hsrc : s.source.Holds []) : decodedFrom fuel s = [] := by
  cases fuel with
  | zero => rfl
  | succ fuel =>
    obtain ⟨src, ha, -⟩ := hsrc.pull_none
    exact decodedFrom_of_nothing fuel (runRun_of_noBitmap ha) rfl

/-- A run of literals that ends the source, complete or cut short, is all that is decoded (R153). -/
theorem decodedFrom_lastRun {s : State} {last : List Byte} (fuel : Nat) (hsrc : s.source.Holds (0xFF#8 :: last))
    (hlen : last.length ≤ 8) : decodedFrom (fuel + 1) s = last := by
  obtain ⟨t, hrun, hleft, hstaged⟩ :=
    runRun_literals (ds := last) (rest := []) (by simpa using hsrc) (by simpa using hlen.eq_or_lt)
  by_cases hnil : last = []
  · have hfill : t.fill = 0#8 := by
      apply BitVec.eq_of_toNat_eq
      rw [← State.length_stagedBytes, hstaged, hnil]
      rfl
    rw [decodedFrom_of_nothing fuel hrun hfill, hnil]
  · rw [decodedFrom_of_staged fuel hrun (by rwa [hstaged]), hstaged, decodedFrom_of_exhausted fuel hleft,
      List.append_nil]

/-- A stream of complete runs of literals: each run's bitmap 0xFF and its literal bytes (R154). -/
def literalRuns (blocks : List (List Byte)) : List Byte := blocks.flatMap fun b => 0xFF#8 :: b

@[simp] theorem literalRuns_nil : literalRuns [] = [] := rfl

@[simp] theorem literalRuns_cons (b : List Byte) (blocks : List (List Byte)) :
    literalRuns (b :: blocks) = 0xFF#8 :: (b ++ literalRuns blocks) := rfl

/-- There are enough bytes for a run to each block. -/
theorem length_le_length_literalRuns (blocks : List (List Byte)) : blocks.length ≤ (literalRuns blocks).length := by
  induction blocks with
  | nil => exact Nat.le_refl 0
  | cons b blocks ih => simp; omega

/-- Complete runs of literals decode to their literal bytes, and the source goes on behind them (R154). -/
theorem decodedFrom_literalRuns {s : State} {blocks : List (List Byte)} {rest : List Byte} (fuel : Nat)
    (hblocks : ∀ b ∈ blocks, b.length = 8) (hsrc : s.source.Holds (literalRuns blocks ++ rest)) :
    ∃ t : State, t.source.Holds rest ∧
      decodedFrom (blocks.length + fuel) s = blocks.flatten ++ decodedFrom fuel t := by
  induction blocks generalizing s with
  | nil => exact ⟨s, hsrc, by simp⟩
  | cons b blocks ih =>
    obtain ⟨hb, htail⟩ := List.forall_mem_cons.mp hblocks
    obtain ⟨u, hrun, hleft, hstaged⟩ :=
      runRun_literals (ds := b) (rest := literalRuns blocks ++ rest) (by simpa using hsrc) (.inl hb)
    have hne : u.stagedBytes ≠ [] := by
      rw [hstaged]
      exact List.ne_nil_of_length_eq_add_one hb
    obtain ⟨t, ht, hdec⟩ := ih htail hleft
    refine ⟨t, ht, ?_⟩
    rw [List.length_cons, Nat.add_right_comm, decodedFrom_of_staged _ hrun hne, hstaged, hdec, List.flatten_cons,
      List.append_assoc]

/-- The decoded string of a stream that begins with complete runs of literals. -/
theorem decString_literalRuns {blocks : List (List Byte)} (rest : List Byte) (hblocks : ∀ b ∈ blocks, b.length = 8) :
    ∃ (t : State) (fuel : Nat), t.source.Holds rest ∧
      decString (literalRuns blocks ++ rest) = blocks.flatten ++ decodedFrom (fuel + 1) t := by
  obtain ⟨fuel, hfuel⟩ : ∃ fuel, (literalRuns blocks ++ rest).length = blocks.length + fuel :=
    Nat.exists_eq_add_of_le (by simpa using Nat.le_add_right_of_le (length_le_length_literalRuns blocks))
  have hsrc : (sessionStart (literalRuns blocks ++ rest) false).source.Holds (literalRuns blocks ++ rest) :=
    .stream [] _ false
  obtain ⟨t, ht, hdec⟩ := decodedFrom_literalRuns (fuel + 1) hblocks hsrc
  exact ⟨t, fuel, ht, by rw [decString, hfuel, Nat.add_assoc, hdec]⟩

/-- Settles O51: the complete runs, and behind them nothing or one more run. -/
theorem literalOnlyStreams : Obligations.LiteralOnlyStreams := by
  refine fun blocks last hblocks hlast => ⟨?_, ?_⟩
  · obtain ⟨t, fuel, ht, hdec⟩ := decString_literalRuns [] hblocks
    rw [decodedFrom_of_exhausted _ ht, List.append_nil, List.append_nil] at hdec
    exact hdec
  · obtain ⟨t, fuel, ht, hdec⟩ := decString_literalRuns (0xFF#8 :: last) hblocks
    rw [decodedFrom_lastRun fuel ht hlast] at hdec
    exact hdec

end Sys2Proof.Machine

/-! SUPPORT. The effect of `INIT` (R120), and that nothing else changes `VALID` (R26, R291); the settlements of O9 and O33. -/

namespace Sys2Proof.Machine

/-- `INIT` writes only `RING`, `WPOS`, `FILL`, `RD`, `VALID` and the ghost (R120, R122). -/
theorem State.initialised_frame (s : State) :
    { s.initialised with
      ring := s.ring, wpos := s.wpos, fill := s.fill, rd := s.rd, valid := s.valid, emitted := s.emitted } = s := rfl

/-- Settles O9: the next state is `initialised` with the completion recorded. -/
theorem initEffect : Obligations.InitEffect := by
  intro s hi
  refine ⟨s.initialised.record .initDone, exec_init s hi, fun a => ?_, rfl, rfl, rfl, rfl, rfl, rfl, ?_⟩
  · exact s.ringRead_initialised a
  · exact s.initialised_frame

/-- R26 for a step with no command word at the port: there is no `INIT` to complete, so keeping `VALID` is enough. -/
theorem State.valid_iff_of_port_none {s t : State} (hp : s.port = none) (hv : t.valid = s.valid) :
    t.valid = true ↔ s.valid = true ∨ (s.phase = .idle ∧ ∃ w, s.port = some w ∧ w.op = 0#1) := by
  simp [hp, hv]

/-- Settles O33: `INIT` sets `VALID`, `READ` is taken only where it is set, and a step without a command word keeps it. -/
theorem validIsSetByInitOnly : Obligations.ValidIsSetByInitOnly := by
  intro s t hstep
  cases step_cases hstep with
  | init w hp ho hi => exact iff_of_true rfl (.inr ⟨hi, w, hp, ho⟩)
  | read w hp ho hi hv => exact iff_of_true hv (.inl hv)
  | _ => exact State.valid_iff_of_port_none ‹s.port = none› rfl

end Sys2Proof.Machine

/-! SUPPORT. `EMIT` and `LIT`: where the byte goes, and the frame (R130, R153); the settlements of O18 and O15. -/

namespace Sys2Proof.Machine

/-- `EMIT` writes only `STAGE`, `RING`, `FILL`, `WPOS` and the ghost (R130). -/
theorem State.emitByte_frame (s : State) (b : Byte) :
    { s.emitByte b with ring := s.ring, stage := s.stage, fill := s.fill, wpos := s.wpos, emitted := s.emitted } = s := rfl

/-- Settles O18: both memories change at the old cursor and nowhere else. -/
theorem emitDualWrite : Obligations.EmitDualWrite := by
  intro s b hroom
  have hc : s.fill.toNat < 144 := by omega
  refine ⟨s.emitByte b, s.emit_eq b hc, ?_, ?_, s.emitByte_fill_toNat b hc, s.emitByte_wpos_toNat b,
    fun k hk => ?_, fun a ha => ?_, rfl, s.emitByte_frame b⟩
  · rw [State.stageRead_emitByte, if_pos rfl]
  · rw [State.ringRead_emitByte, if_pos rfl]
  · rw [State.stageRead_emitByte, if_neg hk.symm]
  · rw [State.ringRead_emitByte, if_neg ha.symm]

/-- Settles O15: `LIT d` is `EMIT(d)` and the move to the next command, which touches neither memory. -/
theorem literalEffect : Obligations.LiteralEffect := by
  intro d s
  refine ⟨fun hroom => ?_, fun hfull => exec_lit_full d s (by omega)⟩
  obtain ⟨t, hemit, hstage, hring, hfill, hwpos, hstageKept, hringKept, hghost, -⟩ := emitDualWrite s d hroom
  obtain ⟨hc, rfl⟩ := State.emit_next hemit
  exact ⟨(s.emitByte d).commandDone, exec_lit d s hc, hstage, hring, hfill, hwpos, rfl, rfl, hghost, hstageKept,
    hringKept, rfl⟩

end Sys2Proof.Machine

/-! SUPPORT. A copy in closed form: the byte each iteration emits, and what `RING`, `STAGE`, both cursors and the ghost hold
after it (R133, R135); the settlements of O19 and O20. -/

namespace Sys2Proof.Machine

/-! ### Iteration by iteration -/

/-- The byte `BLOCKCOPY(start, ·)` emits at iteration `i`: what the ring holds at `start + i` after the first `i` iterations
(R133). -/
def State.copyByteAt (s : State) (start : RingIndex) (i : Nat) : Byte :=
  (s.copied start 0 i).ringRead (copyIndexAt start i)

/-- The last iteration of a copy stands at its end. -/
theorem State.copied_succ_last (s : State) (start : RingIndex) (i k : Nat) :
    s.copied start i (k + 1) =
      (s.copied start i k).emitByte ((s.copied start i k).ringRead (copyIndexAt start (i + k))) := by
  induction k generalizing s i with
  | zero => rfl
  | succ k ih =>
    rw [State.copied, ih, Nat.add_right_comm i 1 k]
    rfl

/-- One more iteration emits its byte. -/
theorem State.copied_succ (s : State) (start : RingIndex) (k : Nat) :
    s.copied start 0 (k + 1) = (s.copied start 0 k).emitByte (s.copyByteAt start k) := by
  rw [State.copied_succ_last, Nat.zero_add, State.copyByteAt]

/-- The bytes of the first `k` iterations, oldest first. -/
def State.copyOutput (s : State) (start : RingIndex) (k : Nat) : List Byte := (List.range k).map (s.copyByteAt start)

theorem State.length_copyOutput (s : State) (start : RingIndex) (k : Nat) : (s.copyOutput start k).length = k := by
  simp [State.copyOutput]

theorem State.getElem?_copyOutput (s : State) (start : RingIndex) {i k : Nat} (hi : i < k) :
    (s.copyOutput start k)[i]? = some (s.copyByteAt start i) := by
  simp [State.copyOutput, hi]

theorem State.copied_emitted (s : State) (start : RingIndex) (k : Nat) :
    (s.copied start 0 k).emitted = (s.copyOutput start k).reverse ++ s.emitted := by
  induction k with
  | zero => rfl
  | succ k ih =>
    rw [State.copied_succ, State.emitByte_emitted, ih]
    simp [State.copyOutput, List.range_succ]

/-! ### The cursor and both memories after `k` iterations -/

theorem State.copied_wpos (s : State) (start : RingIndex) (k : Nat) :
    (s.copied start 0 k).wpos = s.wpos + BitVec.ofNat 12 k := by
  induction k with
  | zero => simp [State.copied]
  | succ k ih =>
    rw [State.copied_succ, State.emitByte_wpos, ih]
    bv_omega

/-- A byte of the ring no iteration wrote is as before. -/
theorem State.ringRead_copied_kept (s : State) (start : RingIndex) {k : Nat} {a : RingIndex}
    (ha : ∀ i, i < k → a ≠ s.wpos + BitVec.ofNat 12 i) : (s.copied start 0 k).ringRead a = s.ringRead a := by
  induction k with
  | zero => rfl
  | succ k ih =>
    rw [State.copied_succ, State.ringRead_emitByte, State.copied_wpos, if_neg (ha k (by omega)).symm]
    exact ih fun i hi => ha i (by omega)

/-- Two places ahead of one cursor, less than a turn of the ring apart, are two addresses. -/
theorem ringIndex_add_ne (w : RingIndex) {i k : Nat} (hi : i < k) (hk : k < 4096) :
    w + BitVec.ofNat 12 k ≠ w + BitVec.ofNat 12 i := by bv_omega

/-- Iteration `i` left its byte in the ring, and within one turn no later iteration overwrites it. -/
theorem State.ringRead_copied_written (s : State) (start : RingIndex) {i k : Nat} (hi : i < k) (hk : k ≤ 4096) :
    (s.copied start 0 k).ringRead (s.wpos + BitVec.ofNat 12 i) = s.copyByteAt start i := by
  induction k with
  | zero => omega
  | succ k ih =>
    rw [State.copied_succ, State.ringRead_emitByte, State.copied_wpos]
    rcases Nat.lt_succ_iff_lt_or_eq.mp hi with hlt | rfl
    · rw [if_neg (ringIndex_add_ne s.wpos hlt hk), ih hlt (by omega)]
    · rw [if_pos rfl]

/-- Iteration `i` leaves its byte in `STAGE`, `i` places beyond the old fill length; every other staged byte is as before. -/
theorem State.stageRead_copied (s : State) (start : RingIndex) {k : Nat} (hroom : s.fill.toNat + k ≤ 144) (a : Nat) :
    (s.copied start 0 k).stageRead a =
      if s.fill.toNat ≤ a ∧ a < s.fill.toNat + k then s.copyByteAt start (a - s.fill.toNat) else s.stageRead a := by
  induction k with
  | zero => rw [if_neg (by omega)]; rfl
  | succ k ih =>
    rw [State.copied_succ, State.stageRead_emitByte, State.copied_fill_toNat s start 0 k (by omega), ih (by omega)]
    by_cases ha : s.fill.toNat + k = a
    · rw [if_pos ha, if_pos (by omega), ← ha, Nat.add_sub_cancel_left]
    · rw [if_neg ha]
      exact if_congr (by omega) rfl rfl

/-! ### BLOCKCOPY -/

theorem blockCopy_eq (start : RingIndex) {len : Nat} {s : State} (hroom : s.fill.toNat + len ≤ 144) :
    blockCopy start len s = .next (s.copied start 0 len) := blockCopyFrom_eq start 0 len s hroom

/-- The read index of R134, as a sum of numbers reduced modulo 4096. -/
theorem copyIndexAt_eq_ofNat_mod (start : RingIndex) (i : Nat) :
    copyIndexAt start i = BitVec.ofNat 12 ((start.toNat + i) % 4096) := by
  unfold copyIndexAt
  bv_omega

/-- Settles O19: the output is `copyOutput`, and both memories hold it from the old cursors on. -/
theorem blockCopyWrites : Obligations.BlockCopyWrites := by
  intro start len s hroom
  refine ⟨s.copied start 0 len, s.copyOutput start len, blockCopy_eq start hroom, s.length_copyOutput start len,
    s.copied_emitted start len, fun i hi => ⟨s.copied start 0 i, blockCopy_eq start (by omega), ?_⟩,
    fun i hi => ⟨?_, ?_⟩, s.copied_fill_toNat start 0 len hroom, ?_, fun k hk => ?_,
    fun a ha => s.ringRead_copied_kept start ha, s.copied_frame start 0 len⟩
  · rw [s.getElem?_copyOutput start hi, ← copyIndexAt_eq_ofNat_mod, State.copyByteAt]
  · rw [s.getElem?_copyOutput start hi, s.stageRead_copied start hroom, if_pos (by omega), Nat.add_sub_cancel_left]
  · rw [s.getElem?_copyOutput start hi, s.ringRead_copied_written start hi (by omega)]
  · simp [State.copied_wpos]
  · rw [s.stageRead_copied start hroom, if_neg (by omega)]

/-! ### Overlap (R135) -/

section Overlap

variable {s : State} {start : RingIndex} {i : Nat}

/-- Up to the distance of `start` behind the cursor, and at distance 0, a copy reads bytes its own iterations have not
written. -/
theorem State.copyByteAt_of_old (hi : i < 4096) (hd : (s.wpos - start).toNat = 0 ∨ i < (s.wpos - start).toNat) :
    s.copyByteAt start i = s.ringRead (start + BitVec.ofNat 12 i) :=
  s.ringRead_copied_kept start fun j hj => by unfold copyIndexAt; bv_omega

/-- From that distance on a copy reads what it wrote itself, a distance ago. -/
theorem State.copyByteAt_of_repeated (hi : i < 4096) (h1 : 1 ≤ (s.wpos - start).toNat) (hd : (s.wpos - start).toNat ≤ i) :
    s.copyByteAt start i = s.copyByteAt start (i - (s.wpos - start).toNat) := by
  have hread : copyIndexAt start i = s.wpos + BitVec.ofNat 12 (i - (s.wpos - start).toNat) := by
    unfold copyIndexAt
    bv_omega
  rw [State.copyByteAt, hread, s.ringRead_copied_written start (by omega) hi.le]

/-- At distance 0 every iteration writes back the byte it has read. -/
theorem State.ringRead_copied_of_start_eq_wpos {k : Nat} (hk : k ≤ 4096) (a : RingIndex) :
    (s.copied s.wpos 0 k).ringRead a = s.ringRead a := by
  by_cases ha : ∃ i, i < k ∧ a = s.wpos + BitVec.ofNat 12 i
  · obtain ⟨i, hi, rfl⟩ := ha
    rw [s.ringRead_copied_written s.wpos hi hk, State.copyByteAt_of_old (by omega) (.inl (by simp))]
  · exact s.ringRead_copied_kept s.wpos fun i hi h => ha ⟨i, hi, h⟩

end Overlap

/-- Settles O20: the output is `copyOutput`, whose bytes are old ones up to the distance and its own after it. -/
theorem overlappingCopyLaw : Obligations.OverlappingCopyLaw := by
  intro start len s v o hroom hcopy hemitted hlen
  cases (blockCopy_eq start hroom).symm.trans hcopy
  obtain rfl : o = s.copyOutput start len :=
    List.reverse_injective (List.append_cancel_right (hemitted.symm.trans (s.copied_emitted start len)))
  refine ⟨fun hd a => ?_, fun i hi => ⟨fun hd => ?_, fun h1 hd => ?_⟩⟩
  · obtain rfl : s.wpos = start := by bv_omega
    exact State.ringRead_copied_of_start_eq_wpos (by omega) a
  · rw [s.getElem?_copyOutput start hi, State.copyByteAt_of_old (by omega) hd]
  · rw [s.getElem?_copyOutput start hi, s.getElem?_copyOutput start (by omega),
      State.copyByteAt_of_repeated (by omega) h1 hd]

end Sys2Proof.Machine

/-! SUPPORT. The steps of phase `COPY` against `BLOCKCOPY` (R155, R217), and the settlement of O17. -/

namespace Sys2Proof.Machine

theorem step_of_copy {s : State} (hp : s.port = none) (hi : s.phase = .copy) : step s = stepCopy s := by
  rw [step_of_port_none hp, stepPhase, hi]

theorem stepCopy_of_lt {s : State} (hx : s.idx < s.len) (hc : s.fill.toNat < 144) :
    stepCopy s = .next { s.emitByte s.copySource with idx := s.idx + 1#5 } := by
  rw [stepCopy, if_pos hx, s.emit_eq _ hc, andThen_next]
  rfl

theorem stepCopy_of_eq {s : State} (hx : s.idx = s.len) : stepCopy s = .next s.commandDone := by
  rw [stepCopy, if_neg (by rw [hx]; exact BitVec.lt_irrefl _), if_pos hx]

section Copying

variable (s : State) (start : RingIndex) (len : CopyCount)

/-- Where the sequencer stands when `CPY start, len`, issued in `s`, has emitted `k` bytes: the memories and cursors are those
after `k` iterations of `BLOCKCOPY`, the copy registers are its own. -/
def State.copying (k : Nat) : State :=
  { s.copied start 0 k with
    c0 := copyByte0 start
    c1 := copyByte1 start len
    start := start
    len := len
    idx := BitVec.ofNat 5 k
    phase := .copy }

theorem exec_cpy_eq_copying : exec (.cpy start len) s = .next (s.copying start len 0) := exec_cpy start len s

variable {s len}

/-- With all its bytes emitted, `IDX` is `LEN`. -/
theorem State.copying_idx_last : (s.copying start len len.toNat).idx = len := by simp [State.copying]

/-- A step of phase `COPY` is the next iteration (R217). -/
theorem step_copying {k : Nat} (hp : s.port = none) (hroom : s.fill.toNat + len.toNat ≤ 144) (hk : k < len.toNat) :
    step (s.copying start len k) = .next (s.copying start len (k + 1)) := by
  have hport : (s.copying start len k).port = none := (s.copied_port start 0 k).trans hp
  have hidx : (BitVec.ofNat 5 k).toNat = k := by
    rw [BitVec.toNat_ofNat, Nat.mod_eq_of_lt (hk.trans len.isLt)]
  have hlt : (s.copying start len k).idx < (s.copying start len k).len := BitVec.lt_def.mpr (hidx.symm ▸ hk)
  have hfill : (s.copying start len k).fill.toNat = s.fill.toNat + k := s.copied_fill_toNat start 0 k (by omega)
  have hbyte : (s.copying start len k).copySource = s.copyByteAt start k :=
    congrArg (fun i => (s.copied start 0 k).ringRead (copyIndexAt start i)) hidx
  rw [step_of_copy hport rfl, stepCopy_of_lt hlt (by omega), hbyte, State.copying, State.copying, State.copied_succ,
    BitVec.ofNat_add]
  rfl

/-- The first `k` steps are the first `k` iterations: nothing comes in between (R139). -/
theorem steps_copying {k : Nat} (hp : s.port = none) (hroom : s.fill.toNat + len.toNat ≤ 144) (hk : k ≤ len.toNat) :
    steps k (s.copying start len 0) = .next (s.copying start len k) := by
  induction k with
  | zero => rfl
  | succ k ih =>
    rw [steps_add, ih (by omega), andThen_next, steps_succ, step_copying start hp hroom hk, andThen_next, steps_zero]

/-- The step after the last byte dispatches the next command (R217). -/
theorem step_copying_done (hp : s.port = none) :
    step (s.copying start len len.toNat) = .next (s.copying start len len.toNat).commandDone := by
  have hport : (s.copying start len len.toNat).port = none := (s.copied_port start 0 len.toNat).trans hp
  rw [step_of_copy hport rfl, stepCopy_of_eq (State.copying_idx_last start)]

end Copying

/-- Settles O17: `len` steps are the iterations, and one more dispatches the next command. -/
theorem copyStepsAreBlockCopy : Obligations.CopyStepsAreBlockCopy := by
  intro start len s _ hp hroom
  refine ⟨s.copying start len 0, (s.copying start len len.toNat).commandDone, s.copied start 0 len.toNat,
    exec_cpy_eq_copying s start len, ?_, blockCopy_eq start hroom, ?_⟩
  · rw [steps_add, steps_copying start hp hroom le_rfl, andThen_next, steps_succ, step_copying_done start hp,
      andThen_next, steps_zero]
  · simp [State.commandDone, State.copying]

end Sys2Proof.Machine

/-! SUPPORT. One command of a run and the start of a run, with every outcome they can have; from it how far a run gets and how
much it stages; the settlements of O44 and O45. -/

namespace Sys2Proof.Machine

/-! ### One command -/

/-- The state after a copy's pull and its `BLOCKCOPY`, at the next command (R155). -/
def State.copyTaken (s : State) (b0 b1 : Byte) (src : Source) : State :=
  { ((s.record (.pull 2)).answered (.ok [b0, b1]) src).copied (copyStart b0 b1) 0 (copyLen b1).toNat with
    bit := s.bit + 1#4 }

theorem runCommands_of_copy {s : State} {b0 b1 : Byte} {src : Source} (k : Nat) (hl : s.literalNext = false)
    (ha : s.source.pull 2 = some (.ok [b0, b1], src)) (hroom : s.fill.toNat + (copyLen b1).toNat ≤ 144) :
    runCommands (k + 1) s = runCommands k (s.copyTaken b0 b1 src) := by
  have hcopy := blockCopy_eq (s := (s.record (.pull 2)).answered (.ok [b0, b1]) src) (copyStart b0 b1) hroom
  rw [runCommands, if_neg (by simp [hl]), State.pullNow_of_some ha]
  simp only [copyStart_formula, copyLen_formula, hcopy, andThen_next]
  rw [State.copied_bit]
  rfl

/-- A failed pull ends the run where it stands (R252). -/
theorem runCommands_of_failed {s : State} {src : Source} (k : Nat)
    (ha : s.source.pull s.commandPoint.count = some (.fail, src)) :
    runCommands (k + 1) s = .next ((s.record (.pull s.commandPoint.count)).answered .fail src) := by
  cases hl : s.literalNext with
  | true =>
    rw [State.commandPoint_of_literal hl] at ha ⊢
    exact runCommands_of_noLiteral k hl ha
  | false =>
    rw [State.commandPoint_of_copy hl] at ha ⊢
    rw [runCommands, if_neg (by simp [hl]), State.pullNow_of_some (k := 2) ha]
    rfl

theorem runCommands_of_unanswered {s : State} (k : Nat) (ha : s.source.pull s.commandPoint.count = none) :
    runCommands (k + 1) s = .refused .pullUnanswered := by
  cases hl : s.literalNext with
  | true =>
    rw [State.commandPoint_of_literal hl] at ha
    rw [runCommands, if_pos hl, State.pullNow_of_none (k := 1) ha]
  | false =>
    rw [State.commandPoint_of_copy hl] at ha
    rw [runCommands, if_neg (by simp [hl]), State.pullNow_of_none (k := 2) ha]

/-- The outcomes of the last `k + 1` commands of a run, one constructor for each answer to the first one's pull. -/
inductive CommandStep (k : Nat) (s : State) : Host.Outcome State Fault Refusal → Prop where
  | unanswered (ha : s.source.pull s.commandPoint.count = none) : CommandStep k s (.refused .pullUnanswered)
  | failed (src : Source) (ha : s.source.pull s.commandPoint.count = some (.fail, src)) :
      CommandStep k s (.next ((s.record (.pull s.commandPoint.count)).answered .fail src))
  | outOfContract (bytes : List Byte) (src : Source) (ha : s.source.pull s.commandPoint.count = some (.ok bytes, src))
      (hlen : bytes.length ≠ s.commandPoint.count) : CommandStep k s (.refused .sourceContract)
  | literal (b : Byte) (src : Source) (hl : s.literalNext = true) (ha : s.source.pull 1 = some (.ok [b], src)) :
      CommandStep k s (runCommands k (s.literalTaken b src))
  | copy (b0 b1 : Byte) (src : Source) (hl : s.literalNext = false)
      (ha : s.source.pull 2 = some (.ok [b0, b1], src)) : CommandStep k s (runCommands k (s.copyTaken b0 b1 src))

/-- With room for the longest copy there are no others: no command faults. -/
theorem runCommands_step (k : Nat) {s : State} (hroom : s.fill.toNat + 18 ≤ 144) :
    CommandStep k s (runCommands (k + 1) s) := by
  cases ha : s.source.pull s.commandPoint.count with
  | none => rw [runCommands_of_unanswered k ha]; exact .unanswered ha
  | some r =>
    obtain ⟨a, src⟩ := r
    cases a with
    | fail => rw [runCommands_of_failed k ha]; exact .failed src ha
    | ok bytes =>
      have hstop := CommandStep.outOfContract (k := k) bytes src ha
      cases hl : s.literalNext with
      | true =>
        rw [State.commandPoint_of_literal hl] at ha hstop
        match bytes with
        | [b] => rw [runCommands_of_literal k hl ha (by omega)]; exact .literal b src hl ha
        | [] | _ :: _ :: _ =>
          rw [runCommands, if_pos hl, State.pullNow_of_some (k := 1) ha]
          exact hstop (by simp [PullPoint.count])
      | false =>
        rw [State.commandPoint_of_copy hl] at ha hstop
        match bytes with
        | [b0, b1] =>
          have hlen := (copyLen_range b1).2
          rw [runCommands_of_copy k hl ha (by omega)]
          exact .copy b0 b1 src hl ha
        | [] | [_] | _ :: _ :: _ :: _ =>
          rw [runCommands, if_neg (by simp [hl]), State.pullNow_of_some (k := 2) ha]
          exact hstop (by simp [PullPoint.count])

/-- The outcomes of a run, one constructor for each answer to its bitmap pull (R150). -/
inductive RunStep (s : State) : Host.Outcome State Fault Refusal → Prop where
  | unanswered (ha : s.source.pull 1 = none) : RunStep s (.refused .pullUnanswered)
  | failed (src : Source) (ha : s.source.pull 1 = some (.fail, src)) :
      RunStep s (.next ((s.runStarted.record (.pull 1)).answered .fail src))
  | outOfContract (bytes : List Byte) (src : Source) (ha : s.source.pull 1 = some (.ok bytes, src))
      (hlen : bytes.length ≠ 1) : RunStep s (.refused .sourceContract)
  | bitmap (f : Byte) (src : Source) (ha : s.source.pull 1 = some (.ok [f], src)) :
      RunStep s (runCommands 8 (s.bitmapTaken f src))

theorem runRun_step (s : State) : RunStep s (runRun s) := by
  cases ha : s.source.pull 1 with
  | none =>
    rw [runRun, State.pullNow_of_none (s := s.runStarted) ha]
    exact .unanswered ha
  | some r =>
    obtain ⟨a, src⟩ := r
    match a with
    | .fail => rw [runRun_of_noBitmap ha]; exact .failed src ha
    | .ok [f] => rw [runRun_of_bitmap ha]; exact .bitmap f src ha
    | .ok [] | .ok (_ :: _ :: _) =>
      rw [runRun, State.pullNow_of_some (s := s.runStarted) ha]
      exact .outOfContract _ src ha (by simp)

/-! ### How far a run gets -/

/-- From `s` to `t` a run has executed `m` commands and recorded the events `es`: a pull and its bytes for each. A command
stages between 1 and 18 bytes (R153, R156). -/
structure State.Executed (s t : State) (m : Nat) (es : List Event) : Prop where
  trace : t.trace = s.trace ++ es
  noFailure : Event.answer .fail ∉ es
  length : es.length = 2 * m
  bit : t.bit = s.bit + BitVec.ofNat 4 m
  fill_ge : s.fill.toNat + m ≤ t.fill.toNat
  fill_le : t.fill.toNat ≤ s.fill.toNat + 18 * m

theorem State.executed_none (s : State) : s.Executed s 0 [] where
  trace := (List.append_nil _).symm
  noFailure := nofun
  length := rfl
  bit := (BitVec.add_zero _).symm
  fill_ge := Nat.le_refl _
  fill_le := Nat.le_refl _

/-- One more command in front. -/
theorem State.Executed.after {s t u : State} {m : Nat} {es es' : List Event} (h' : t.Executed u m es')
    (h : s.Executed t 1 es) : s.Executed u (m + 1) (es ++ es') where
  trace := by rw [h'.trace, h.trace, List.append_assoc]
  noFailure := by simp [h.noFailure, h'.noFailure]
  length := by rw [List.length_append, h.length, h'.length]; omega
  bit := by rw [h'.bit, h.bit, BitVec.add_assoc, ← BitVec.ofNat_add, Nat.add_comm]
  fill_ge := by have := h.fill_ge; have := h'.fill_ge; omega
  fill_le := by have := h.fill_le; have := h'.fill_le; omega

theorem State.literalTaken_fill_toNat {s : State} (b : Byte) (src : Source) (hc : s.fill.toNat < 144) :
    (s.literalTaken b src).fill.toNat = s.fill.toNat + 1 :=
  State.emitByte_fill_toNat (s := (s.record (.pull 1)).answered (.ok [b]) src) b hc

theorem State.copyTaken_fill_toNat {s : State} (b0 b1 : Byte) (src : Source)
    (hroom : s.fill.toNat + (copyLen b1).toNat ≤ 144) :
    (s.copyTaken b0 b1 src).fill.toNat = s.fill.toNat + (copyLen b1).toNat :=
  State.copied_fill_toNat ((s.record (.pull 2)).answered (.ok [b0, b1]) src) (copyStart b0 b1) 0 _ hroom

theorem State.executed_literalTaken {s : State} (b : Byte) (src : Source) (hroom : s.fill.toNat + 18 ≤ 144) :
    s.Executed (s.literalTaken b src) 1 [.pull 1, .answer (.ok [b])] := by
  have hfill := State.literalTaken_fill_toNat b src (s := s) (by omega)
  exact
    { trace := List.append_assoc _ _ _
      noFailure := by simp
      length := rfl
      bit := rfl
      fill_ge := by omega
      fill_le := by omega }

theorem State.executed_copyTaken {s : State} (b0 b1 : Byte) (src : Source) (hroom : s.fill.toNat + 18 ≤ 144) :
    s.Executed (s.copyTaken b0 b1 src) 1 [.pull 2, .answer (.ok [b0, b1])] := by
  have hlen := copyLen_range b1
  have hfill := State.copyTaken_fill_toNat b0 b1 src (s := s) (by omega)
  exact
    { trace := by simp [State.copyTaken]
      noFailure := by simp
      length := rfl
      bit := rfl
      fill_ge := by omega
      fill_le := by omega }

/-- The last `k` commands of a run are all executed, or `m` of them up to the first whose pull fails (R157). -/
inductive CommandsExecuted (k : Nat) (s : State) : State → Prop where
  | complete {t : State} (es : List Event) (h : s.Executed t k es) : CommandsExecuted k s t
  | aborted (u : State) (m : Nat) (es : List Event) (j : Nat) (src : Source) (h : s.Executed u m es) (hm : m < k) :
      CommandsExecuted k s ((u.record (.pull j)).answered .fail src)

theorem CommandsExecuted.after {k : Nat} {s u t : State} {es : List Event} (ht : CommandsExecuted k u t)
    (h : s.Executed u 1 es) : CommandsExecuted (k + 1) s t := by
  cases ht with
  | complete es' h' => exact .complete _ (h'.after h)
  | aborted u' m es' j src h' hm => exact .aborted u' (m + 1) _ j src (h'.after h) (Nat.succ_lt_succ hm)

theorem runCommands_executed {k : Nat} {s t : State} (hroom : s.fill.toNat + 18 * k ≤ 144)
    (h : runCommands k s = .next t) : CommandsExecuted k s t := by
  induction k generalizing s with
  | zero => cases h; exact .complete [] (State.executed_none _)
  | succ k ih =>
    have hstep := runCommands_step k (s := s) (by omega)
    rw [h] at hstep
    generalize ho : Host.Outcome.next t = o at hstep
    cases hstep with
    | unanswered | outOfContract => cases ho
    | failed src => cases ho; exact .aborted s 0 [] _ src s.executed_none (Nat.succ_pos k)
    | literal b src =>
      have hone := State.executed_literalTaken b src (s := s) (by omega)
      have hle := hone.fill_le
      exact (ih (by omega) ho.symm).after hone
    | copy b0 b1 src =>
      have hone := State.executed_copyTaken b0 b1 src (s := s) (by omega)
      have hle := hone.fill_le
      exact (ih (by omega) ho.symm).after hone

/-- With room for its copies a run's commands do not fault (R131). -/
theorem runCommands_ne_fault {k : Nat} {s : State} (hroom : s.fill.toNat + 18 * k ≤ 144) (f : Fault) :
    runCommands k s ≠ .fault f := by
  induction k generalizing s with
  | zero => nofun
  | succ k ih =>
    have hstep := runCommands_step k (s := s) (by omega)
    generalize runCommands (k + 1) s = o at hstep ⊢
    cases hstep with
    | unanswered | failed | outOfContract => nofun
    | literal b src =>
      have hle := (State.executed_literalTaken b src (s := s) (by omega)).fill_le
      exact ih (by omega)
    | copy b0 b1 src =>
      have hle := (State.executed_copyTaken b0 b1 src (s := s) (by omega)).fill_le
      exact ih (by omega)

/-! ### RUN -/

/-- The bitmap is there and as many commands are executed as have their operands, or not even the bitmap is (R157). -/
theorem runRun_executed {s t : State} (h : runRun s = .next t) :
    (∃ src, t = (s.runStarted.record (.pull 1)).answered .fail src) ∨
      ∃ f src, CommandsExecuted 8 (s.bitmapTaken f src) t := by
  obtain ⟨src, -, rfl⟩ | ⟨f, src, -, hr⟩ := runRun_cases h
  · exact .inl ⟨src, rfl⟩
  · exact .inr ⟨f, src, runCommands_executed (s := s.bitmapTaken f src) (Nat.le_refl 144) hr⟩

theorem runRun_ne_fault (s : State) (f : Fault) : runRun s ≠ .fault f := by
  have hstep := runRun_step s
  generalize runRun s = o at hstep ⊢
  cases hstep with
  | unanswered | failed | outOfContract => nofun
  | bitmap b src => exact runCommands_ne_fault (s := s.bitmapTaken b src) (Nat.le_refl 144) f

/-- A run stages at most eight times 18 bytes (R158). -/
theorem runRun_fill_le {s t : State} (h : runRun s = .next t) : t.fill.toNat ≤ 144 := by
  obtain ⟨src, rfl⟩ | ⟨f, src, hr⟩ := runRun_executed h
  · exact Nat.zero_le _
  · cases hr with
    | complete es he => exact he.fill_le
    | aborted u m es j src' he hm => exact he.fill_le.trans (by simp [State.bitmapTaken]; omega)

/-- Settles O44: a run starts with nothing staged, so each of its eight commands finds room for 18 bytes. -/
theorem runNeverOverflowsStaging : Obligations.RunNeverOverflowsStaging :=
  fun s => ⟨runRun_ne_fault s, fun _ => runRun_fill_le⟩

theorem State.bitmapTaken_trace (s : State) (f : Byte) (src : Source) :
    (s.bitmapTaken f src).trace = s.trace ++ [.pull 1, .answer (.ok [f])] := by simp [State.bitmapTaken]

/-- The two traces of a run that stops before it stages a byte are two and four events longer than the one it began with. -/
theorem length_of_stagedNothing {base es : List Event}
    (h : base ++ es = base ++ [.pull 1, .answer .fail] ∨
      ∃ f k, base ++ es = base ++ [.pull 1, .answer (.ok [f]), .pull k, .answer .fail]) :
    es.length = 2 ∨ es.length = 4 := by
  obtain h | ⟨f, k, h⟩ := h
  · exact .inl (congrArg List.length (List.append_cancel_left h))
  · exact .inr (congrArg List.length (List.append_cancel_left h))

/-- Settles O45: a complete run executes eight commands, an aborted one none to seven, and one without a bitmap none. The
number of events tells how many commands there were. -/
theorem runEndsInOneOfTwoWays : Obligations.RunEndsInOneOfTwoWays := by
  intro s t h
  obtain ⟨src, rfl⟩ | ⟨f, src, hr⟩ := runRun_executed h
  · exact ⟨.inr ⟨by simp, by simp⟩, by simp⟩
  · have hbitmap := s.bitmapTaken_trace f src
    cases hr with
    | complete es he =>
      have htrace : t.trace = s.trace ++ ([.pull 1, .answer (.ok [f])] ++ es) := by
        rw [he.trace, hbitmap, List.append_assoc]
      have hge : 0 + 8 ≤ t.fill.toNat := he.fill_ge
      have hlen := he.length
      refine ⟨.inl ⟨he.bit, fun hlast => ?_, by omega, he.fill_le⟩, fun h0 => by omega, fun hend => ?_⟩
      · rw [htrace, List.getLast?_append_of_ne_nil _ (by simp)] at hlast
        exact he.noFailure (by simpa using List.mem_of_getLast? hlast)
      · have hcount := length_of_stagedNothing (htrace ▸ hend)
        simp only [List.length_append, List.length_cons, List.length_nil] at hcount
        omega
    | aborted u m es j src' he hm =>
      have htrace : ((u.record (.pull j)).answered .fail src').trace =
          s.trace ++ ([.pull 1, .answer (.ok [f])] ++ es ++ [.pull j, .answer .fail]) := by
        simp [he.trace, hbitmap]
      have hge : 0 + m ≤ u.fill.toNat := he.fill_ge
      have hle : u.fill.toNat ≤ 0 + 18 * m := he.fill_le
      have hlen := he.length
      refine ⟨.inr ⟨by simp, by rw [State.answered_fill, State.record_fill]; omega⟩, fun h0 => .inr ⟨f, j, ?_⟩,
        fun hend => ?_⟩
      · obtain rfl : m = 0 := by rw [State.answered_fill, State.record_fill] at h0; omega
        rw [htrace, List.length_eq_zero_iff.mp hlen]
        rfl
      · have hcount := length_of_stagedNothing (htrace ▸ hend)
        simp only [List.length_append, List.length_cons, List.length_nil] at hcount
        rw [State.answered_fill, State.record_fill]
        omega

end Sys2Proof.Machine

/-! SUPPORT. One iteration of the loop of `READ` in its three cases, and the induction along the loop. -/

namespace Sys2Proof.Machine

section

variable {s : State}

/-- A drain keeps the cursors in order (R27). -/
theorem State.drain_rd_le_fill (hle : s.rd ≤ s.fill) : s.drain.rd ≤ s.drain.fill := by
  rw [BitVec.le_def, State.drain_rd_toNat hle, State.drain_fill hle]
  exact State.rd_add_drainCount_le hle

/-- Bytes left over after the drain: the destination is full, and the loop ends (R183). -/
theorem readLoop_of_leftover (fuel : Nat) (hroom : s.filled < s.n) (hs : s.drain.rd ≠ s.drain.fill)
    (hfull : ¬ s.drain.filled < s.drain.n) : readLoop (fuel + 1) s = .next s.drain := by
  rw [readLoop_of_room fuel hroom, refill_of_staged hs, andThen_next, readLoop_of_full fuel hfull, ite_self]

/-- Drained: a run, and the loop goes on unless it staged nothing (R184, R185). -/
theorem readLoop_of_drained (fuel : Nat) (hroom : s.filled < s.n) (hs : s.drain.rd = s.drain.fill) :
    readLoop (fuel + 1) s =
      andThen (runRun s.drain) fun t =>
        if t.fill = 0#8 then .next { t with rd := 0#8 } else readLoop fuel { t with rd := 0#8 } := by
  rw [readLoop_of_room fuel hroom, refill_of_drained hs, andThen_assoc]
  rfl

/-- The induction along the loop of a `READ` in progress that has fuel for every iteration: what holds where the destination
is full, where a drain fills it, and of a drain and a run when it holds after them. -/
theorem State.Reading.loop_induction {P : Nat → State → Prop} {n fuel : Nat} {base es : List Event}
    (h : s.Reading n base es) (hle : s.rd ≤ s.fill) (hfuel : s.FuelFor n fuel)
    (full : ∀ fuel s, ¬ s.filled < s.n → P fuel s)
    (leftover : ∀ fuel s, s.rd ≤ s.fill → s.filled < s.n → s.drain.rd ≠ s.drain.fill →
      ¬ s.drain.filled < s.drain.n → P (fuel + 1) s)
    (drained : ∀ fuel s, s.rd ≤ s.fill → s.filled < s.n → s.drain.rd = s.drain.fill →
      (∀ t, runRun s.drain = .next t → t.fill ≠ 0#8 → P fuel { t with rd := 0#8 }) → P (fuel + 1) s) : P fuel s := by
  induction fuel generalizing s es with
  | zero =>
    refine full 0 s ?_
    rw [h.n_eq]
    rcases hfuel with hlt | ⟨-, hle⟩ <;> omega
  | succ fuel ih =>
    by_cases hroom : s.filled < s.n
    · obtain ⟨es₁, hdrain⟩ := h.drain hle
      by_cases hs : s.drain.rd = s.drain.fill
      · refine drained fuel s hle hroom hs fun t hrun hne => ?_
        obtain ⟨es₂, hnext, hfilled, -⟩ := hdrain.afterRun hrun
        have hset : State.Settled { t with rd := 0#8 } := State.settled_of_rd_zero rfl
        have hfuel' : n - t.filled ≤ fuel := hfilled ▸ h.fuel_after_drain hfuel hroom
        exact ih hnext hset.rd_le_fill (.inr ⟨hset.resolve_right fun hz => hne hz.1, hfuel'⟩)
      · refine leftover fuel s hle hroom hs ?_
        rw [hdrain.n_eq, State.drain_filled, State.drainCount_of_staged hle hs, ← h.n_eq]
        omega
    · exact full _ s hroom

end

end Sys2Proof.Machine

/-! SUPPORT. The sequencer against the big-step operations (R223): it stands in a phase of its own over the state of a big-step
operation, and runs on to the end that operation has; the settlement of O48. -/

namespace Sys2Proof.Machine

/-! ### Ending alike -/

/-- The sequencer, run from `s` to the next idle state, ends as the outcome `o` of a big-step operation does. -/
def State.EndsLike (s : State) (o : Host.Outcome State Fault Refusal) : Prop := ∃ k, EndAlike (runToIdle k s) o

section

variable {s t : State} {o : Host.Outcome State Fault Refusal}

theorem State.EndsLike.of_step (hbusy : s.phase ≠ .idle) (hstep : step s = .next t) (h : t.EndsLike o) :
    s.EndsLike o := by
  obtain ⟨k, hk⟩ := h
  exact ⟨k + 1, by rwa [runToIdle, if_neg hbusy, hstep]⟩

theorem State.endsLike_refused {r : Refusal} (hbusy : s.phase ≠ .idle) (hstep : step s = .refused r) :
    s.EndsLike (.refused r) :=
  ⟨1, .inr (.inl ⟨r, by rw [runToIdle, if_neg hbusy, hstep]; rfl, rfl⟩)⟩

/-! ### The tests of the loop, and the answer of a pull -/

/-- `LOOP` goes to the drain while there is room (R213). -/
theorem step_of_loop (hp : s.port = none) (hi : s.phase = .loop) :
    step s = .next { s with phase := if s.filled < s.n then .drain else .ret } := by
  rw [step_of_port_none hp, stepPhase, hi, stepLoop]
  by_cases hr : s.filled < s.n <;> simp [State.roomLeft, hr]

/-- `CHECK` goes round again unless nothing was staged (R218). -/
theorem step_of_check (hp : s.port = none) (hi : s.phase = .check) :
    step s = .next { s with phase := if s.fill = 0#8 then .ret else .loop } := by
  rw [step_of_port_none hp, stepPhase, hi, stepCheck]
  by_cases hf : s.fill = 0#8 <;> simp [State.nothingProduced, hf]

/-- A failed pull takes `Exhausted` (R250, R252). -/
theorem step_of_failedPull {p : PullPoint} {src : Source} (hp : s.port = none) (hi : s.phase = .wait p)
    (ha : s.source.pull p.count = some (.fail, src)) : step s = .next (s.answered .fail src).exhausted := by
  rw [step_of_wait hp hi, stepWait, ha]

/-- An answer of another length than asked for is refused (R59, log 8). -/
theorem step_of_outOfContract {p : PullPoint} {bytes : List Byte} {src : Source} (hp : s.port = none)
    (hi : s.phase = .wait p) (ha : s.source.pull p.count = some (.ok bytes, src)) (hlen : bytes.length ≠ p.count) :
    step s = .refused .sourceContract := by
  rw [step_of_wait hp hi, stepWait, ha]
  simp only [runCode, decode_stream_of_length_ne hlen]

end

/-! ### The sequencer over a big-step state -/

/-- The sequencer in phase `p` over the state `s` of a big-step operation, with the copy registers of `q`: these and the phase
are what a big-step operation does not use. -/
def State.on (s : State) (p : Phase) (q : State) : State :=
  { s with phase := p, port := none, c0 := q.c0, c1 := q.c1, start := q.start, len := q.len, idx := q.idx }

section

variable (s q : State)

theorem step_on_loop : step (s.on .loop q) = .next (s.on (if s.filled < s.n then .drain else .ret) q) :=
  step_of_loop rfl rfl

theorem step_on_check : step (s.on .check q) = .next (s.on (if s.fill = 0#8 then .ret else .loop) q) :=
  step_of_check rfl rfl

/-- The outside does not see what the sequencer adds. -/
theorem State.sameOutside_on (p : Phase) : (s.on p q).SameOutside s :=
  ⟨rfl, rfl, rfl, rfl, rfl, rfl, rfl, rfl, rfl, rfl, rfl⟩

/-- A copy does not use what the sequencer adds. -/
theorem State.copied_on (p : Phase) (start : RingIndex) (i k : Nat) :
    (s.on p q).copied start i k = (s.copied start i k).on p q := by
  induction k generalizing s i with
  | zero => rfl
  | succ k ih => exact ih (s.emitByte (s.ringRead (copyIndexAt start i))) (i + 1)

/-- The copy done, the sequencer stands at the next command, over the state after the copy. -/
theorem State.copying_commandDone_on (p : Phase) (start : RingIndex) (len : CopyCount) (k : Nat) :
    ((s.on p q).copying start len k).commandDone =
      State.on { s.copied start 0 k with bit := s.bit + 1#4 } .cmd ((s.on p q).copying start len k) := by
  simp only [State.commandDone, State.copying, State.copied_on]
  simp [State.on]

variable {s q} {o : Host.Outcome State Fault Refusal}

/-! ### The end of a `READ` -/

theorem State.endsLike_on_ret : (s.on .ret q).EndsLike (.next s.readReturned) :=
  .of_step nofun (show step (s.on .ret q) = .next (s.readReturned.on .idle q) from rfl)
    ⟨0, .inl ⟨_, _, rfl, rfl, rfl, rfl, s.readReturned.sameOutside_on q .idle⟩⟩

theorem State.endsLike_on_loop_of_full (hr : ¬ s.filled < s.n) : (s.on .loop q).EndsLike (.next s.readReturned) :=
  .of_step nofun (step_on_loop s q) (by rw [if_neg hr]; exact State.endsLike_on_ret)

theorem State.EndsLike.on_check_of_staged (hf : s.fill ≠ 0#8) (h : (s.on .loop q).EndsLike o) :
    (s.on .check q).EndsLike o :=
  .of_step nofun (step_on_check s q) (by rwa [if_neg hf])

theorem State.endsLike_on_check_of_nothing (hf : s.fill = 0#8) : (s.on .check q).EndsLike (.next s.readReturned) :=
  .of_step nofun (step_on_check s q) (by rw [if_pos hf]; exact State.endsLike_on_ret)

/-! ### RUN -/

theorem State.endsLike_on_wait_of_unanswered {p : PullPoint} (ha : s.source.pull p.count = none) :
    (s.on (.wait p) q).EndsLike (.refused .pullUnanswered) :=
  State.endsLike_refused nofun (unansweredPullHangs _ p rfl rfl ha)

theorem State.endsLike_on_wait_of_outOfContract {p : PullPoint} {bytes : List Byte} {src : Source}
    (ha : s.source.pull p.count = some (.ok bytes, src)) (hlen : bytes.length ≠ p.count) :
    (s.on (.wait p) q).EndsLike (.refused .sourceContract) :=
  State.endsLike_refused nofun (step_of_outOfContract rfl rfl ha hlen)

theorem State.EndsLike.on_wait_of_failed {p : PullPoint} {src : Source} (ha : s.source.pull p.count = some (.fail, src))
    (h : (State.on { s.answered .fail src with rd := 0#8 } .check q).EndsLike o) : (s.on (.wait p) q).EndsLike o :=
  .of_step nofun (step_of_failedPull rfl rfl ha) h

/-- The bytes a pull has brought are run over the state in which they have come. -/
theorem step_on_wait {p : PullPoint} {bytes : List Byte} {src : Source} {i : Instr} (q : State)
    (ha : s.source.pull p.count = some (.ok bytes, src)) (hd : decode (.stream p bytes) = .ok i) :
    step (s.on (.wait p) q) = exec i ((s.answered (.ok bytes) src).on (.wait p) q) :=
  stepRunsThePulledCommand (s.on (.wait p) q) p bytes src i rfl rfl ha hd

/-- The steps of phase `COPY` come to the state after the copy (R217). -/
theorem State.EndsLike.of_copying {start : RingIndex} {len : CopyCount} (hp : s.port = none)
    (hroom : s.fill.toNat + len.toNat ≤ 144) (h : (s.copying start len len.toNat).commandDone.EndsLike o) :
    (s.copying start len 0).EndsLike o := by
  have hcopying : ∀ k ≤ len.toNat, (s.copying start len k).EndsLike o → (s.copying start len 0).EndsLike o := by
    intro k
    induction k with
    | zero => exact fun _ hk => hk
    | succ k ih => exact fun hle hk => ih (by omega) (.of_step nofun (step_copying start hp hroom hle) hk)
  exact hcopying len.toNat le_rfl (.of_step nofun (step_copying_done start hp) h)

/-- A literal's bytes have come: it is emitted, and the next command is dispatched (R216). -/
theorem State.EndsLike.on_wait_literal {b : Byte} {src : Source} (ha : s.source.pull 1 = some (.ok [b], src))
    (hc : s.fill.toNat < 144) (h : ((s.literalTaken b src).on .cmd q).EndsLike o) :
    ((s.record (.pull 1)).on (.wait .xLit) q).EndsLike o :=
  .of_step nofun ((step_on_wait (s := s.record (.pull 1)) (p := .xLit) q ha (decode_lit b)).trans (exec_lit b _ hc)) h

/-- A copy's operand has come: it is copied, and the next command is dispatched (R216, R217). -/
theorem State.EndsLike.on_wait_copy {b0 b1 : Byte} {src : Source} (ha : s.source.pull 2 = some (.ok [b0, b1], src))
    (hroom : s.fill.toNat + (copyLen b1).toNat ≤ 144) (h : ∀ q', ((s.copyTaken b0 b1 src).on .cmd q').EndsLike o) :
    ((s.record (.pull 2)).on (.wait .xCpy) q).EndsLike o := by
  have hstep := (step_on_wait (s := s.record (.pull 2)) (p := .xCpy) q ha (decode_cpy b0 b1)).trans
    (exec_cpy_eq_copying _ _ _)
  refine .of_step nofun hstep (.of_copying rfl hroom ?_)
  rw [State.copying_commandDone_on ((s.record (.pull 2)).answered (.ok [b0, b1]) src)]
  exact h _

/-- From dispatch on, the sequencer executes the last `k` commands of a run as `RUN` does; then it stands in `CHECK` with `RD`
at 0. -/
theorem State.EndsLike.on_cmd {k : Nat} {f : State → Host.Outcome State Fault Refusal} (hbit : s.bit.toNat + k = 8)
    (hroom : s.fill.toNat + 18 * k ≤ 144)
    (hend : ∀ t q', runCommands k s = .next t → (State.on { t with rd := 0#8 } .check q').EndsLike (f t)) :
    (s.on .cmd q).EndsLike (andThen (runCommands k s) f) := by
  induction k generalizing s q with
  | zero =>
    have hstep : step (s.on .cmd q) = .next (s.on .cmd q).runCompleted := if_pos hbit
    exact .of_step nofun hstep (hend s q rfl)
  | succ k ih =>
    have hb : (s.on .cmd q).bit < 8#4 := show s.bit.toNat < 8 by omega
    refine .of_step nofun (step_of_cmd rfl rfl hb) ?_
    have hcmd := runCommands_step k (s := s) (by omega)
    generalize ho : runCommands (k + 1) s = o at hcmd
    have hbit' : (s.bit + 1#4).toNat + k = 8 := by rw [bit_succ_toNat (by omega)]; omega
    cases hcmd with
    | unanswered ha => exact State.endsLike_on_wait_of_unanswered (s := s.record (.pull s.commandPoint.count)) ha
    | failed src ha =>
      exact .on_wait_of_failed (s := s.record (.pull s.commandPoint.count)) ha (hend _ q ho)
    | outOfContract bytes src ha hlen =>
      exact State.endsLike_on_wait_of_outOfContract (s := s.record (.pull s.commandPoint.count)) ha hlen
    | literal b src hl ha =>
      have hfill := State.literalTaken_fill_toNat b src (s := s) (by omega)
      have hp : (s.on .cmd q).commandPoint = .xLit := State.commandPoint_of_literal hl
      rw [hp]
      refine State.EndsLike.on_wait_literal (s := s) ha (by omega) ?_
      exact ih hbit' (by omega) fun t q' ht => hend t q' (ho.trans ht)
    | copy b0 b1 src hl ha =>
      have hlen := (copyLen_range b1).2
      have hfill := State.copyTaken_fill_toNat b0 b1 src (s := s) (by omega)
      have hp : (s.on .cmd q).commandPoint = .xCpy := State.commandPoint_of_copy hl
      rw [hp]
      refine State.EndsLike.on_wait_copy (s := s) ha (by omega) fun q₁ => ?_
      exact ih hbit' (by omega) fun t q' ht => hend t q' (ho.trans ht)

/-- From `BMPF` on, the sequencer runs as `RUN` does. -/
theorem State.EndsLike.on_bmpf {f : State → Host.Outcome State Fault Refusal}
    (hend : ∀ t q', runRun s = .next t → (State.on { t with rd := 0#8 } .check q').EndsLike (f t)) :
    (s.runStarted.on .bmpf q).EndsLike (andThen (runRun s) f) := by
  refine .of_step nofun (step_of_bmpf rfl rfl) ?_
  have hrun := runRun_step s
  generalize ho : runRun s = o at hrun
  cases hrun with
  | unanswered ha => exact State.endsLike_on_wait_of_unanswered (s := s.runStarted.record (.pull 1)) ha
  | failed src ha => exact .on_wait_of_failed (s := s.runStarted.record (.pull 1)) ha (hend _ q ho)
  | outOfContract bytes src ha hlen =>
    exact State.endsLike_on_wait_of_outOfContract (s := s.runStarted.record (.pull 1)) ha hlen
  | bitmap b src ha =>
    refine .of_step nofun (step_on_wait (s := s.runStarted.record (.pull 1)) (p := .xBmp) q ha (decode_bmp b)) ?_
    exact State.EndsLike.on_cmd (s := s.bitmapTaken b src) rfl (Nat.le_refl 144) fun t q' ht => hend t q' (ho.trans ht)

/-! ### READ -/

/-- A delivery writes only the destination, the trace and the two cursors (R183). -/
theorem State.deliveries_frame (s : State) (k : Nat) :
    { s.deliveries k with rd := s.rd, filled := s.filled, dest := s.dest, trace := s.trace } = s := by
  induction k with
  | zero => rfl
  | succ k ih => exact ih

@[simp] theorem State.deliveries_n (s : State) (k : Nat) : (s.deliveries k).n = s.n :=
  (congrArg State.n (s.deliveries_frame k) :)

/-- Byte after byte, phase `DRAIN` comes to the state after as many deliveries (R214). -/
theorem State.EndsLike.of_deliveries {k : Nat} (hk : s.rd.toNat + k ≤ s.fill.toNat) (hroom : s.filled + k ≤ s.n)
    (hcap : s.fill.toNat ≤ 144) (h : ((s.deliveries k).on .drain q).EndsLike o) : (s.on .drain q).EndsLike o := by
  induction k with
  | zero => exact h
  | succ k ih =>
    have hrd := s.deliveries_rd_toNat k (by omega)
    have hs : (s.deliveries k).rd < (s.deliveries k).fill := by
      rw [State.deliveries_fill, BitVec.lt_def, hrd]
      omega
    have hr : (s.deliveries k).filled < (s.deliveries k).n := by rw [State.deliveries_filled, State.deliveries_n]; omega
    have hstep : step ((s.deliveries k).on .drain q) = .next ((s.deliveries (k + 1)).on .drain q) :=
      (step_of_drain rfl rfl).trans (stepDrain_of_staged hs hr (by show (s.deliveries k).rd.toNat < 144; omega))
    exact ih (by omega) (by omega) (.of_step nofun hstep h)

theorem State.EndsLike.on_drain (hle : s.rd ≤ s.fill) (hr : s.filled < s.n) (hcap : s.fill.toNat ≤ 144)
    (h : (s.drain.on .drain q).EndsLike o) : (s.on .drain q).EndsLike o := by
  have hcount : s.drainCount ≤ s.n - s.filled := Nat.min_le_right _ _
  rw [State.drain_eq_deliveries hle] at h
  exact .of_deliveries (State.rd_add_drainCount_le hle) (by omega) hcap h

/-- From `LOOP` on, the sequencer runs as the loop of `READ` does, to its return. -/
def State.LoopEndsAlike (fuel : Nat) (s : State) : Prop :=
  s.fill.toNat ≤ 144 → ∀ q, (s.on .loop q).EndsLike (andThen (readLoop fuel s) fun t => .next t.readReturned)

/-- It does with fuel for every iteration: the cases of the loop, in the sequencer's steps. -/
theorem State.Reading.loopEndsAlike {n fuel : Nat} {base es : List Event} (h : s.Reading n base es) (hle : s.rd ≤ s.fill)
    (hfuel : s.FuelFor n fuel) : s.LoopEndsAlike fuel := by
  refine h.loop_induction (P := fun fuel s => s.LoopEndsAlike fuel) hle hfuel ?full ?leftover ?drained
  case full =>
    intro fuel s hfull _ q
    rw [readLoop_of_full fuel hfull]
    exact State.endsLike_on_loop_of_full hfull
  case leftover =>
    intro fuel s hle hroom hs hfull hcap q
    have hne : s.drain.fill ≠ 0#8 := fun hz => by
      have hrd := State.drain_rd_le_fill hle
      exact hs (by bv_omega)
    rw [readLoop_of_leftover fuel hroom hs hfull]
    refine .of_step nofun (step_on_loop s q) ?_
    rw [if_pos hroom]
    refine .on_drain hle hroom hcap ?_
    refine .of_step nofun ((step_of_drain rfl rfl).trans (stepDrain_of_full hs hfull)) ?_
    exact State.EndsLike.on_check_of_staged (s := s.drain) hne (State.endsLike_on_loop_of_full hfull)
  case drained =>
    intro fuel s hle hroom hs ih hcap q
    rw [readLoop_of_drained fuel hroom hs, andThen_assoc]
    refine .of_step nofun (step_on_loop s q) ?_
    rw [if_pos hroom]
    refine .on_drain hle hroom hcap ?_
    refine .of_step nofun ((step_of_drain rfl rfl).trans (stepDrain_of_drained hs)) ?_
    refine State.EndsLike.on_bmpf (s := s.drain) fun t q' hrun => ?_
    by_cases hz : t.fill = 0#8
    · rw [if_pos hz]
      exact State.endsLike_on_check_of_nothing (s := { t with rd := 0#8 }) hz
    · have hcap' : t.fill.toNat ≤ 144 := runRun_fill_le hrun
      rw [if_neg hz]
      exact .on_check_of_staged hz (ih t hrun hz hcap' q')

end

/-- Settles O48: the request leaves the sequencer in `LOOP` over the state in which the loop of `READ` begins. -/
theorem sequencerAgreesWithRead : Obligations.SequencerAgreesWithRead := by
  intro s n hinv hi hv hp
  have hstart : ({ s.readStarted n with phase := .loop } : State) = (s.readStarted n).on .loop s := by
    simp [State.on, State.readStarted, hp]
  have hle : (s.readStarted n).rd ≤ (s.readStarted n).fill := (hinv.settled_of_idle hi).rd_le_fill
  rw [exec_read n s hi hv, hstart]
  exact (s.reading_readStarted n).loopEndsAlike hle (.inl (Nat.lt_succ_self n)) hinv.fillCap s

end Sys2Proof.Machine

/-! SUPPORT. Two runs under `STREAM(S)` from states that decode alike, and the decoded string as a relation that does not name
the fuel; what a session of `READ`s still owes, and the settlement of O50. -/

namespace Sys2Proof.Machine

/-! ### Pulls of two bytes -/

/-- Two bytes left are pulled. -/
theorem Source.Holds.pull_two {src : Source} {b0 b1 : Byte} {rest : List Byte} (h : src.Holds (b0 :: b1 :: rest)) :
    ∃ src', src.pull 2 = some (.ok [b0, b1], src') ∧ src'.Holds rest := by
  cases h with
  | stream pulled _ spend =>
    refine ⟨.stream (pulled ++ b0 :: b1 :: rest) (pulled.length + 2) spend, ?_, ?_⟩
    · rw [Source.pull_stream_enough spend (by simp), List.drop_left]
      rfl
    · simpa using Source.Holds.stream (pulled ++ [b0, b1]) rest spend

/-- With less than a pull asks for left it fails, and as much or nothing is left: the two variants of R62. -/
theorem Source.Holds.pull_short {src : Source} {rest : List Byte} {k : Nat} (h : src.Holds rest) (hk : rest.length < k) :
    ∃ src' left, src.pull k = some (.fail, src') ∧ src'.Holds left ∧ left.length ≤ rest.length := by
  cases h with
  | stream pulled _ spend =>
    have hfail := Source.pull_stream_short (bytes := pulled ++ rest) (pos := pulled.length) (k := k) spend (by simpa using hk)
    cases spend with
    | true => exact ⟨_, [], hfail, by simpa using Source.Holds.stream (pulled ++ rest) [] true, Nat.zero_le _⟩
    | false => exact ⟨_, rest, hfail, .stream pulled rest false, le_rfl⟩

/-! ### Two runs -/

/-- `t` decodes as `s` does, whose source has the bytes of the index left: ring, cursor and bytes left are the same, or both
have less left than a run needs to stage a byte. -/
inductive State.Twins (s t : State) : List Byte → Prop where
  | level {rest : List Byte} (hring : s.ring = t.ring) (hwpos : s.wpos = t.wpos) (hs : s.source.Holds rest)
      (ht : t.source.Holds rest) : Twins s t rest
  | spent {rest rest' : List Byte} (hs : s.source.Holds rest) (ht : t.source.Holds rest') (hlen : rest.length ≤ 1)
      (hlen' : rest'.length ≤ 1) : Twins s t rest

theorem State.Twins.holds {s t : State} {rest : List Byte} (h : s.Twins t rest) : s.source.Holds rest := by
  cases h <;> assumption

/-- Inside a run the staged bytes and the registers of the run are the same, too. -/
structure State.RunTwins (s t : State) : Prop where
  ring : s.ring = t.ring
  wpos : s.wpos = t.wpos
  staged : s.stagedBytes = t.stagedBytes
  bmp : s.bmp = t.bmp
  bit : s.bit = t.bit

theorem State.stagedBytes_eq_nil {s : State} (h : s.fill = 0#8) : s.stagedBytes = [] := by
  rw [State.stagedBytes, h]
  rfl

theorem State.fill_eq_of_stagedBytes_eq {s t : State} (h : s.stagedBytes = t.stagedBytes) : s.fill = t.fill := by
  apply BitVec.eq_of_toNat_eq
  rw [← State.length_stagedBytes, ← State.length_stagedBytes, h]

section

variable {s t : State}

theorem State.RunTwins.literalNext (h : s.RunTwins t) : s.literalNext = t.literalNext := by
  rw [State.literalNext, State.literalNext, h.bmp, h.bit]

theorem State.RunTwins.emitByte (h : s.RunTwins t) (b : Byte) (hc : s.fill.toNat < 144) :
    (s.emitByte b).RunTwins (t.emitByte b) :=
  { h with
    ring := by rw [State.emitByte_ring, State.emitByte_ring, h.ring, h.wpos]
    wpos := congrArg (· + 1#12) h.wpos
    staged := by
      have hc' : t.fill.toNat < 144 := State.fill_eq_of_stagedBytes_eq h.staged ▸ hc
      rw [State.stagedBytes_emitByte b hc, State.stagedBytes_emitByte b hc', h.staged] }

theorem State.RunTwins.copied (h : s.RunTwins t) (start : RingIndex) (i : Nat) {k : Nat} (hroom : s.fill.toNat + k ≤ 144) :
    (s.copied start i k).RunTwins (t.copied start i k) := by
  induction k generalizing s t i with
  | zero => exact h
  | succ k ih =>
    rw [State.copied, State.copied, s.ringRead_congr t h.ring]
    refine ih (h.emitByte _ (by omega)) (i + 1) ?_
    rw [State.emitByte_fill_toNat _ (by omega)]
    omega

theorem State.RunTwins.answered (h : s.RunTwins t) (k : Nat) (a : Answer) (src src' : Source) :
    ((s.record (.pull k)).answered a src).RunTwins ((t.record (.pull k)).answered a src') := { h with }

theorem State.RunTwins.literalTaken (h : s.RunTwins t) (b : Byte) (src src' : Source) (hc : s.fill.toNat < 144) :
    (s.literalTaken b src).RunTwins (t.literalTaken b src') :=
  { (h.answered 1 (.ok [b]) src src').emitByte b hc with bit := congrArg (· + 1#4) h.bit }

theorem State.RunTwins.copyTaken (h : s.RunTwins t) (b0 b1 : Byte) (src src' : Source)
    (hroom : s.fill.toNat + (copyLen b1).toNat ≤ 144) : (s.copyTaken b0 b1 src).RunTwins (t.copyTaken b0 b1 src') :=
  { (h.answered 2 (.ok [b0, b1]) src src').copied (copyStart b0 b1) 0 hroom with bit := congrArg (· + 1#4) h.bit }

/-- Two outcomes are next states with the same bytes staged that decode alike from there; the source of the first has at most
`most` bytes left, and at least `least` bytes are staged unless the source is spent. -/
def TwinEnds (most least : Nat) (o o' : Host.Outcome State Fault Refusal) : Prop :=
  ∃ u v left, o = .next u ∧ o' = .next v ∧ u.stagedBytes = v.stagedBytes ∧ u.Twins v left ∧ left.length ≤ most ∧
    (least ≤ u.fill.toNat ∨ left.length ≤ 1)

theorem TwinEnds.mono {most most' least least' : Nat} {o o' : Host.Outcome State Fault Refusal}
    (h : TwinEnds most least o o') (hm : most ≤ most') (hl : least' ≤ least) : TwinEnds most' least' o o' := by
  obtain ⟨u, v, left, hu, hv, hstaged, htwins, hmost, hleast⟩ := h
  exact ⟨u, v, left, hu, hv, hstaged, htwins, hmost.trans hm, hleast.imp_left hl.trans⟩

/-- The operand pull of the next command fails in both, and neither has more than one byte left. -/
theorem State.RunTwins.ends_of_short {rest : List Byte} (h : s.RunTwins t) (hs : s.source.Holds rest)
    (ht : t.source.Holds rest) (hshort : rest.length < s.commandPoint.count) (k least : Nat) :
    TwinEnds rest.length least (runCommands (k + 1) s) (runCommands (k + 1) t) := by
  have hpoint : t.commandPoint = s.commandPoint := by rw [State.commandPoint, State.commandPoint, h.literalNext]
  have hcount : s.commandPoint.count ≤ 2 := by cases s.commandPoint <;> decide
  obtain ⟨src, left, ha, hleft, hle⟩ := hs.pull_short hshort
  obtain ⟨src', left', ha', hleft', hle'⟩ := ht.pull_short hshort
  rw [runCommands_of_failed k ha, runCommands_of_failed k (hpoint.symm ▸ ha')]
  exact ⟨_, _, left, rfl, rfl, h.staged, .spent hleft hleft' (by omega) (by omega), hle, .inr (by omega)⟩

theorem State.copyTaken_source (s : State) (b0 b1 : Byte) (src : Source) : (s.copyTaken b0 b1 src).source = src := by
  simp [State.copyTaken]

/-- The last `k` commands of two runs: each executes alike and stages a byte, up to where the source ends. -/
theorem State.RunTwins.runCommands {k : Nat} {rest : List Byte} (h : s.RunTwins t) (hs : s.source.Holds rest)
    (ht : t.source.Holds rest) (hroom : s.fill.toNat + 18 * k ≤ 144) :
    TwinEnds rest.length (s.fill.toNat + k) (runCommands k s) (runCommands k t) := by
  induction k generalizing s t rest with
  | zero => exact ⟨s, t, rest, rfl, rfl, h.staged, .level h.ring h.wpos hs ht, le_rfl, .inl le_rfl⟩
  | succ k ih =>
    have hfill : s.fill = t.fill := State.fill_eq_of_stagedBytes_eq h.staged
    cases hl : s.literalNext with
    | true =>
      have hl' : t.literalNext = true := h.literalNext ▸ hl
      match rest with
      | [] => exact h.ends_of_short hs ht (by rw [State.commandPoint_of_literal hl]; decide) k _
      | b :: rest =>
        obtain ⟨src, ha, hleft⟩ := hs.pull_one
        obtain ⟨src', ha', hleft'⟩ := ht.pull_one
        have hone := State.literalTaken_fill_toNat b src (s := s) (by omega)
        rw [runCommands_of_literal k hl ha (by omega), runCommands_of_literal k hl' ha' (by rw [← hfill]; omega)]
        exact (ih (h.literalTaken b src src' (by omega)) hleft hleft' (by omega)).mono (by simp) (by omega)
    | false =>
      have hl' : t.literalNext = false := h.literalNext ▸ hl
      match rest with
      | [] | [_] => exact h.ends_of_short hs ht (by rw [State.commandPoint_of_copy hl]; simp [PullPoint.count]) k _
      | b0 :: b1 :: rest =>
        obtain ⟨src, ha, hleft⟩ := hs.pull_two
        obtain ⟨src', ha', hleft'⟩ := ht.pull_two
        have hlen := copyLen_range b1
        have hcopy := State.copyTaken_fill_toNat b0 b1 src (s := s) (by omega)
        have hsrc := (s.copyTaken_source b0 b1 src).symm ▸ hleft
        have hsrc' := (t.copyTaken_source b0 b1 src').symm ▸ hleft'
        rw [runCommands_of_copy k hl ha (by omega), runCommands_of_copy k hl' ha' (by rw [← hfill]; omega)]
        exact (ih (h.copyTaken b0 b1 src src' (by omega)) hsrc hsrc' (by omega)).mono (by simp; omega) (by omega)

/-- A run from a source with at most one byte left stages nothing: there is no bitmap, or no operand of command 0. -/
theorem runRun_of_spent {rest : List Byte} (hs : s.source.Holds rest) (hlen : rest.length ≤ 1) :
    ∃ u left, runRun s = .next u ∧ u.fill = 0#8 ∧ u.source.Holds left ∧ left.length ≤ 1 := by
  match rest with
  | [] =>
    obtain ⟨src, ha, hleft⟩ := hs.pull_none
    exact ⟨_, [], runRun_of_noBitmap ha, rfl, hleft, Nat.zero_le _⟩
  | [f] =>
    obtain ⟨src, ha, hleft⟩ := hs.pull_one
    have hshort : ([] : List Byte).length < (s.bitmapTaken f src).commandPoint.count := by
      cases (s.bitmapTaken f src).commandPoint <;> decide
    obtain ⟨src', left, ha', hleft', hle⟩ := Source.Holds.pull_short (src := (s.bitmapTaken f src).source) hleft hshort
    exact ⟨_, left, (runRun_of_bitmap ha).trans (runCommands_of_failed 7 ha'), rfl, hleft', hle.trans (Nat.zero_le _)⟩

/-- Two runs from states that decode alike return, stage the same bytes, and decode alike from there; a run that stages nothing
leaves the source spent, and any other run takes from it. -/
theorem State.Twins.runRun {rest : List Byte} (h : s.Twins t rest) :
    ∃ u v left, runRun s = .next u ∧ runRun t = .next v ∧ u.stagedBytes = v.stagedBytes ∧ u.Twins v left ∧
      (u.fill = 0#8 → left.length ≤ 1) ∧ (u.fill ≠ 0#8 → left.length < rest.length) := by
  cases h with
  | spent hs ht hlen hlen' =>
    obtain ⟨u, left, hu, hz, hleft, hle⟩ := runRun_of_spent hs hlen
    obtain ⟨v, left', hv, hz', hleft', hle'⟩ := runRun_of_spent ht hlen'
    have hstaged : u.stagedBytes = v.stagedBytes := by rw [State.stagedBytes_eq_nil hz, State.stagedBytes_eq_nil hz']
    exact ⟨u, v, left, hu, hv, hstaged, .spent hleft hleft' hle hle', fun _ => hle, fun hne => absurd hz hne⟩
  | level hring hwpos hs ht =>
    match rest with
    | [] =>
      obtain ⟨src, ha, hleft⟩ := hs.pull_none
      obtain ⟨src', ha', hleft'⟩ := ht.pull_none
      exact ⟨_, _, [], runRun_of_noBitmap ha, runRun_of_noBitmap ha', rfl, .level hring hwpos hleft hleft',
        fun _ => Nat.zero_le _, fun hne => absurd rfl hne⟩
    | f :: rest =>
      obtain ⟨src, ha, hleft⟩ := hs.pull_one
      obtain ⟨src', ha', hleft'⟩ := ht.pull_one
      have htwins : (s.bitmapTaken f src).RunTwins (t.bitmapTaken f src') := ⟨hring, hwpos, rfl, rfl, rfl⟩
      obtain ⟨u, v, left, hu, hv, hstaged, hend, hmost, hleast⟩ :=
        htwins.runCommands (k := 8) hleft hleft' (Nat.le_refl 144)
      refine ⟨u, v, left, (runRun_of_bitmap ha).trans hu, (runRun_of_bitmap ha').trans hv, hstaged, hend,
        fun hz => hleast.resolve_left ?_, fun _ => Nat.lt_succ_of_le hmost⟩
      rw [hz]
      exact Nat.not_succ_le_zero 7

/-- One run under `STREAM(S)` returns; one that stages nothing leaves the source spent, and any other takes from it. -/
theorem runRun_of_holds {rest : List Byte} (hs : s.source.Holds rest) :
    ∃ u left, runRun s = .next u ∧ u.source.Holds left ∧ (u.fill = 0#8 → left.length ≤ 1) ∧
      (u.fill ≠ 0#8 → left.length < rest.length) := by
  obtain ⟨u, v, left, hu, -, -, htwins, hspent, hless⟩ := (State.Twins.level rfl rfl hs hs).runRun
  exact ⟨u, left, hu, htwins.holds, hspent, hless⟩

end

/-! ### The decoded string, without fuel -/

/-- `RUN` after `RUN` from `s`, until one stages nothing, stages the bytes of the index (R193). -/
inductive State.Decodes : State → List Byte → Prop where
  | nothing {s t : State} (hrun : runRun s = .next t) (hfill : t.fill = 0#8) : Decodes s []
  | staged {s t : State} {out : List Byte} (hrun : runRun s = .next t) (hfill : t.fill ≠ 0#8) (hout : t.Decodes out) :
      Decodes s (t.stagedBytes ++ out)

/-- With a run's worth of fuel for each byte left `decodedFrom` is that string. -/
theorem State.decodes_decodedFrom {s : State} {rest : List Byte} {fuel : Nat} (hs : s.source.Holds rest)
    (hfuel : rest.length < fuel) : s.Decodes (decodedFrom fuel s) := by
  induction fuel generalizing s rest with
  | zero => omega
  | succ fuel ih =>
    obtain ⟨u, left, hu, hleft, -, hless⟩ := runRun_of_holds hs
    by_cases hz : u.fill = 0#8
    · rw [decodedFrom_of_nothing fuel hu hz]
      exact .nothing hu hz
    · have hne : u.stagedBytes ≠ [] := fun hnil =>
        hz (BitVec.eq_of_toNat_eq (by rw [← State.length_stagedBytes, hnil]; rfl))
      have hlt := hless hz
      rw [decodedFrom_of_staged fuel hu hne]
      exact .staged hu hz (ih hleft (by omega))

/-- States that decode alike decode to the same string. -/
theorem State.Decodes.twin {s t : State} {rest out : List Byte} (h : s.Decodes out) (hst : s.Twins t rest) :
    t.Decodes out := by
  induction h generalizing t rest with
  | nothing hrun hfill =>
    obtain ⟨u, v, left, hu, hv, hstaged, -, -, -⟩ := hst.runRun
    cases hu.symm.trans hrun
    exact .nothing hv (State.fill_eq_of_stagedBytes_eq hstaged ▸ hfill)
  | staged hrun hfill _ ih =>
    obtain ⟨u, v, left, hu, hv, hstaged, htwins, -, -⟩ := hst.runRun
    cases hu.symm.trans hrun
    rw [hstaged]
    exact .staged hv (State.fill_eq_of_stagedBytes_eq hstaged ▸ hfill) (ih htwins)

theorem State.Decodes.eq_nil {s t : State} {out : List Byte} (h : s.Decodes out) (hrun : runRun s = .next t)
    (hfill : t.fill = 0#8) : out = [] := by
  cases h with
  | nothing => rfl
  | staged hrun' hfill' =>
    cases hrun.symm.trans hrun'
    exact absurd hfill hfill'

/-! ### What a session owes -/

/-- The staged bytes not yet delivered, oldest first (R25). -/
def State.unread (s : State) : List Byte := s.stagedBytes.drop s.rd.toNat

/-- What further `READ`s will deliver from `s`: the unread bytes, and what the rest of the stream decodes to. -/
inductive State.Owes (s : State) : List Byte → Prop where
  | owes {rest later : List Byte} (hle : s.rd ≤ s.fill) (hsrc : s.source.Holds rest) (hlater : s.Decodes later) :
      Owes s (s.unread ++ later)

section

variable {s t : State}

theorem State.Owes.rd_le_fill {out : List Byte} (h : s.Owes out) : s.rd ≤ s.fill := by
  obtain ⟨hle, -, -⟩ := h
  exact hle

/-- The request and the return of a `READ` change nothing of what is owed. -/
theorem State.Owes.readStarted {out : List Byte} (h : s.Owes out) (n : Nat) : (s.readStarted n).Owes out := by
  obtain ⟨hle, hsrc, hlater⟩ := h
  exact .owes (s := s.readStarted n) hle hsrc (hlater.twin (.level rfl rfl hsrc hsrc))

theorem State.Owes.readReturned {out : List Byte} (h : s.Owes out) : s.readReturned.Owes out := by
  obtain ⟨hle, hsrc, hlater⟩ := h
  exact .owes (s := s.readReturned) hle hsrc (hlater.twin (.level rfl rfl hsrc hsrc))

/-- After a run, and `RD` back at 0, all that it decoded is owed. -/
theorem State.owes_afterRun {rest later : List Byte} (hsrc : s.source.Holds rest) (hlater : s.Decodes later)
    (hrun : runRun s = .next t) : State.Owes { t with rd := 0#8 } later := by
  obtain ⟨u, left, hu, hleft, hspent, -⟩ := runRun_of_holds hsrc
  cases hu.symm.trans hrun
  have hle : State.rd { t with rd := 0#8 } ≤ State.fill { t with rd := 0#8 } := Nat.zero_le _
  have hreset : ∀ {out}, t.Decodes out → State.Decodes { t with rd := 0#8 } out := fun h =>
    h.twin (.level rfl rfl hleft hleft)
  cases hlater with
  | nothing hrun' hfill =>
    cases hrun.symm.trans hrun'
    have hunread : State.unread { t with rd := 0#8 } = [] := State.stagedBytes_eq_nil hfill
    obtain ⟨v, -, hv, hz, -, -⟩ := runRun_of_spent hleft (hspent hfill)
    simpa [hunread] using State.Owes.owes (s := { t with rd := 0#8 }) hle hleft (hreset (.nothing hv hz))
  | staged hrun' hfill hout =>
    cases hrun.symm.trans hrun'
    exact .owes (s := { t with rd := 0#8 }) hle hleft (hreset hout)

/-! ### The drain -/

theorem State.length_unread (s : State) : s.unread.length = s.fill.toNat - s.rd.toNat := by simp [State.unread]

theorem State.deliverByte_deliveredBytes (s : State) :
    s.deliverByte.deliveredBytes = s.deliveredBytes ++ [s.stageRead s.rd.toNat] := by
  have hbelow : (List.range s.filled).map (fun j => (s.deliverByte.destRead j).getD 0#8) = s.deliveredBytes :=
    List.map_congr_left fun j hj => by rw [State.destRead_deliverByte, if_neg (List.mem_range.mp hj).ne']
  rw [State.deliveredBytes, State.deliverByte_filled, List.range_succ, List.map_append, hbelow]
  simp [State.destRead_deliverByte]

@[simp] theorem State.deliveries_stage (s : State) (k : Nat) : (s.deliveries k).stage = s.stage :=
  (congrArg State.stage (s.deliveries_frame k) :)
@[simp] theorem State.deliveries_ring (s : State) (k : Nat) : (s.deliveries k).ring = s.ring :=
  (congrArg State.ring (s.deliveries_frame k) :)
@[simp] theorem State.deliveries_wpos (s : State) (k : Nat) : (s.deliveries k).wpos = s.wpos :=
  (congrArg State.wpos (s.deliveries_frame k) :)
@[simp] theorem State.deliveries_source (s : State) (k : Nat) : (s.deliveries k).source = s.source :=
  (congrArg State.source (s.deliveries_frame k) :)

/-- `k` deliveries hand over the first `k` unread bytes. -/
theorem State.deliveries_deliveredBytes (s : State) (k : Nat) (hk : s.rd.toNat + k ≤ s.fill.toNat) :
    (s.deliveries k).deliveredBytes = s.deliveredBytes ++ s.unread.take k := by
  induction k with
  | zero => simp [State.deliveries]
  | succ k ih =>
    have hrd := s.deliveries_rd_toNat k (by omega)
    have hnext : s.unread[k]? = some (s.stageRead (s.rd.toNat + k)) := by
      rw [State.unread, List.getElem?_drop, State.stagedBytes, List.getElem?_map, List.getElem?_range (by omega)]
      rfl
    rw [State.deliveries, State.deliverByte_deliveredBytes, ih (by omega), hrd, List.take_add_one, hnext,
      State.stageRead_congr _ s (s.deliveries_stage k)]
    simp

/-- `k` deliveries leave the unread bytes behind the first `k`. -/
theorem State.deliveries_unread (s : State) (k : Nat) (hk : s.rd.toNat + k ≤ s.fill.toNat) :
    (s.deliveries k).unread = s.unread.drop k := by
  have hstaged : (s.deliveries k).stagedBytes = s.stagedBytes := by
    rw [State.stagedBytes, State.deliveries_fill]
    exact List.map_congr_left fun j _ => State.stageRead_congr _ s (s.deliveries_stage k) j
  rw [State.unread, hstaged, s.deliveries_rd_toNat k hk, State.unread, List.drop_drop]

/-- A drain hands over the unread bytes it has room for, and leaves the others (R183). -/
theorem State.drain_deliveredBytes (hle : s.rd ≤ s.fill) :
    s.drain.deliveredBytes = s.deliveredBytes ++ s.unread.take s.drainCount := by
  rw [State.drain_eq_deliveries hle, State.deliveries_deliveredBytes _ _ (State.rd_add_drainCount_le hle)]

theorem State.drain_unread (hle : s.rd ≤ s.fill) : s.drain.unread = s.unread.drop s.drainCount := by
  rw [State.drain_eq_deliveries hle, State.deliveries_unread _ _ (State.rd_add_drainCount_le hle)]

/-- A drain that drains hands over all of them. -/
theorem State.drainCount_of_drained (hle : s.rd ≤ s.fill) (hs : s.drain.rd = s.drain.fill) :
    s.drainCount = s.unread.length := by
  have hcount := State.drain_rd_toNat hle
  rw [hs, State.drain_fill hle] at hcount
  rw [State.length_unread]
  omega

theorem State.drain_n (hle : s.rd ≤ s.fill) : s.drain.n = s.n := by
  rw [State.drain_eq_deliveries hle, State.deliveries_n]

theorem State.drain_source (hle : s.rd ≤ s.fill) : s.drain.source = s.source := by
  rw [State.drain_eq_deliveries hle, State.deliveries_source]

/-- A drain leaves the stream and the ring as they are. -/
theorem State.Decodes.drain {rest out : List Byte} (h : s.Decodes out) (hle : s.rd ≤ s.fill)
    (hsrc : s.source.Holds rest) : s.drain.Decodes out :=
  h.twin (.level (by rw [State.drain_eq_deliveries hle, State.deliveries_ring])
    (by rw [State.drain_eq_deliveries hle, State.deliveries_wpos]) hsrc (State.drain_source hle ▸ hsrc))

theorem State.Records.deliveredBytes {es : List Event} (h : s.Records t es) : t.deliveredBytes = s.deliveredBytes := by
  simp only [State.deliveredBytes, State.destRead, h.filled, h.dest]

/-! ### READ -/

/-- A `READ` in progress returns, with as many of the owed bytes behind those it has delivered as there is room for; it owes
the others (R192). -/
def State.LoopDelivers (fuel : Nat) (s : State) : Prop :=
  ∀ out, s.Owes out → ∃ t, readLoop fuel s = .next t ∧ t.Owes (out.drop (s.n - s.filled)) ∧
    t.deliveredBytes = s.deliveredBytes ++ out.take (s.n - s.filled)

/-- It does with fuel for every iteration: a drain hands over unread bytes, a run makes the next ones unread. -/
theorem State.Reading.loopDelivers {n fuel : Nat} {base es : List Event} (h : s.Reading n base es) (hle : s.rd ≤ s.fill)
    (hfuel : s.FuelFor n fuel) : s.LoopDelivers fuel := by
  refine h.loop_induction (P := fun fuel s => s.LoopDelivers fuel) hle hfuel ?full ?leftover ?drained
  case full =>
    intro fuel s hfull out howes
    have hroom : s.n - s.filled = 0 := by omega
    exact ⟨s, readLoop_of_full fuel hfull, by rwa [hroom], by simp [hroom]⟩
  case leftover =>
    rintro fuel s - hroom hs hfull _ ⟨hle, hsrc, hlater⟩
    have hcount : s.drainCount = s.n - s.filled := State.drainCount_of_staged hle hs
    have hlen : s.n - s.filled ≤ s.unread.length := by
      rw [← hcount, State.length_unread]
      exact Nat.min_le_left _ _
    refine ⟨s.drain, readLoop_of_leftover fuel hroom hs hfull, ?_, ?_⟩
    · rw [List.drop_append_of_le_length hlen, ← hcount, ← State.drain_unread hle]
      exact .owes (State.drain_rd_le_fill hle) ((State.drain_source hle).symm ▸ hsrc) (hlater.drain hle hsrc)
    · rw [List.take_append_of_le_length hlen, ← hcount, State.drain_deliveredBytes hle]
  case drained =>
    rintro fuel s - hroom hs ih _ ⟨hle, hsrc, hlater⟩
    have hcount : s.drainCount = s.unread.length := State.drainCount_of_drained hle hs
    have hlen : s.unread.length ≤ s.n - s.filled := hcount ▸ Nat.min_le_right _ _
    have hsrc' : s.drain.source.Holds _ := (State.drain_source hle).symm ▸ hsrc
    have hlater' := hlater.drain hle hsrc
    obtain ⟨u, left, hrun, -, -, -⟩ := runRun_of_holds hsrc'
    obtain ⟨es, hrec, -⟩ := runRun_records hrun
    have hnext := State.owes_afterRun hsrc' hlater' hrun
    have hbytes : u.deliveredBytes = s.deliveredBytes ++ s.unread := by
      rw [hrec.deliveredBytes, State.drain_deliveredBytes hle, hcount, List.take_length]
    have hroomLeft : u.n - u.filled = s.n - s.filled - s.unread.length := by
      rw [hrec.n, hrec.filled, State.drain_n hle, State.drain_filled, hcount, Nat.sub_add_eq]
    rw [readLoop_of_drained fuel hroom hs, hrun, andThen_next, List.take_append, List.take_of_length_le hlen,
      List.drop_append, List.drop_of_length_le hlen, ← hroomLeft, ← List.append_assoc, ← hbytes]
    by_cases hz : u.fill = 0#8
    · rw [if_pos hz]
      obtain rfl := hlater'.eq_nil hrun hz
      exact ⟨_, rfl, by simpa using hnext, by simp [State.deliveredBytes, State.destRead]⟩
    · rw [if_neg hz]
      exact ih u hrun hz _ hnext

end

/-- A `READ` delivers the first `n` bytes of what is owed, and owes the others (R192). -/
theorem State.Owes.bigRead {s : State} {out : List Byte} (h : s.Owes out) (n : Nat) :
    ∃ t, bigRead n s = .next t ∧ t.Owes (out.drop n) ∧ t.deliveredBytes = out.take n := by
  have hle : (s.readStarted n).rd ≤ (s.readStarted n).fill := h.rd_le_fill
  obtain ⟨t, hloop, howes, hbytes⟩ :=
    (s.reading_readStarted n).loopDelivers hle (.inl (Nat.lt_succ_self n)) out (h.readStarted n)
  exact ⟨t.readReturned, by rw [Machine.bigRead, hloop]; rfl, howes.readReturned, hbytes⟩

/-- A session of `READ`s cuts what is owed into the sizes the host chose. -/
theorem State.Owes.readSession {s : State} {out : List Byte} (h : s.Owes out) (ns : List Nat) :
    ∃ t, readSession ns s = some (ns.splitLengths out, t) := by
  induction ns generalizing s out with
  | nil => exact ⟨s, rfl⟩
  | cons n ns ih =>
    obtain ⟨t, hread, howes, hbytes⟩ := h.bigRead n
    obtain ⟨u, hsession⟩ := ih howes
    exact ⟨u, by simp [Machine.readSession, hread, hsession, hbytes]⟩

/-- After `INIT` all of the decoded string is owed, in both variants of the source. -/
theorem sessionStart_owes (bytes : List Byte) (spend : Bool) : (sessionStart bytes spend).Owes (decString bytes) := by
  have hsrc : ∀ spend, (sessionStart bytes spend).source.Holds bytes := .stream [] bytes
  have hdecodes : (sessionStart bytes false).Decodes (decString bytes) :=
    State.decodes_decodedFrom (hsrc false) (Nat.lt_succ_self _)
  exact .owes (s := sessionStart bytes spend) (BitVec.le_refl _) (hsrc spend)
    (hdecodes.twin (.level rfl rfl (hsrc false) (hsrc spend)))

/-! ### Cutting a list -/

theorem flatten_splitLengths_eq_take {α : Type*} (l : List α) (sz : List Nat) :
    (sz.splitLengths l).flatten = l.take sz.sum := by
  induction sz generalizing l with
  | nil => simp
  | cons n sz ih => simp [ih, List.take_add]

theorem getElem?_splitLengths {α : Type*} (l : List α) (sz : List Nat) (i : Nat) :
    (sz.splitLengths l)[i]? = sz[i]?.map fun n => (l.drop (sz.take i).sum).take n := by
  induction sz generalizing l i with
  | nil => simp
  | cons n sz ih => cases i <;> simp [ih]

/-- Settles O50: the session cuts the decoded string, so a `READ` that returns short has come to its end. -/
theorem chunkingIndependence : Obligations.ChunkingIndependence := by
  intro bytes spend ns
  obtain ⟨t, hsession⟩ := (sessionStart_owes bytes spend).readSession ns
  refine ⟨_, t, hsession, List.length_splitLengths _ _, fun i _ => ?_, fun i d n hd hn hshort => ?_⟩
  · rw [List.take_splitLength, flatten_splitLengths_eq_take]
  · have hsum : (ns.take (i + 1)).sum = (ns.take i).sum + n := by simp [List.take_add_one, hn]
    have hall : (decString bytes).length ≤ (ns.take (i + 1)).sum := by
      rw [getElem?_splitLengths, hn] at hd
      cases hd
      simp only [List.length_take, List.length_drop] at hshort
      omega
    refine ⟨by rw [List.take_splitLength, flatten_splitLengths_eq_take, List.take_of_length_le hall], fun j e hij he => ?_⟩
    have hmono : (ns.take (i + 1)).sum ≤ (ns.take j).sum := List.monotone_sum_take ns hij
    rw [getElem?_splitLengths, List.drop_of_length_le (hall.trans hmono)] at he
    obtain ⟨m, -, rfl⟩ := Option.map_eq_some_iff.mp he
    exact List.take_nil

end Sys2Proof.Machine

/-! SUPPORT. The host's `READ` request, and two `READ`s that deliver nothing, followed step by step: `READ(0)`, and a `READ`
with nothing staged whose bitmap pull fails; the settlements of O10, O12 and O13. -/

namespace Sys2Proof.Machine

/-- Settles O10: each clause is the meaning of the operation under the phase and `VALID` it names. -/
theorem readRequest : Obligations.ReadRequest := by
  intro s n
  refine ⟨fun hi hv => ?_, fun hi hv => ?_, fun hi => ⟨?_, ?_⟩⟩
  · exact exec_read n s hi hv
  · exact exec_read_uninitialised n s hi hv
  · exact exec_read_busy n s hi
  · exact exec_init_busy s hi

section

variable {s : State}

/-- `RET` ends the `READ` (R219). -/
theorem step_of_ret (hp : s.port = none) (hi : s.phase = .ret) : step s = .next s.readReturned := by
  rw [step_of_port_none hp, stepPhase, hi, stepRet]

/-- Two steps, each of which answers a next state. -/
theorem steps_two_of_next {t u : State} (hst : step s = .next t) (htu : step t = .next u) : steps 2 s = .next u := by
  rw [steps_succ, hst, andThen_next, steps_succ, htu, andThen_next, steps_zero]

/-- With the destination full, `LOOP` returns by way of `RET` (R213, R219). -/
theorem steps_two_of_loop_full (hp : s.port = none) (hi : s.phase = .loop) (hr : ¬ s.filled < s.n) :
    steps 2 s = .next s.readReturned :=
  steps_two_of_next (t := { s with phase := .ret }) (by rw [step_of_loop hp hi, if_neg hr]) (step_of_ret hp rfl)

/-- With nothing produced, `CHECK` returns by way of `RET` (R218, R219). -/
theorem steps_two_of_check_nothing (hp : s.port = none) (hi : s.phase = .check) (hf : s.fill = 0#8) :
    steps 2 s = .next s.readReturned :=
  steps_two_of_next (t := { s with phase := .ret }) (by rw [step_of_check hp hi, if_pos hf]) (step_of_ret hp rfl)

/-- With room left and everything drained, `LOOP` starts a run by way of `DRAIN` (R213, R214 case b). -/
theorem steps_two_of_loop_drained (hp : s.port = none) (hi : s.phase = .loop) (hr : s.filled < s.n) (he : s.rd = s.fill) :
    steps 2 s = .next { s with fill := 0#8, phase := .bmpf } := by
  have hloop : step s = .next { s with phase := .drain } := by rw [step_of_loop hp hi, if_pos hr]
  have hdrain : step { s with phase := .drain } = stepDrain { s with phase := .drain } := step_of_drain hp rfl
  exact steps_two_of_next hloop (hdrain.trans (stepDrain_of_drained he))

/-- A bitmap pull that fails takes `Exhausted` (R215, R250). -/
theorem steps_two_of_bmpf_failed {src : Source} (hp : s.port = none) (hi : s.phase = .bmpf)
    (ha : s.source.pull 1 = some (.fail, src)) :
    steps 2 s = .next ((s.pullIssued .xBmp).answered .fail src).exhausted :=
  steps_two_of_next (step_of_bmpf hp hi) (step_of_failedPull (p := .xBmp) hp rfl ha)

/-- A bitmap pull that fails with nothing staged ends the `READ` (R215, R218, R219). -/
theorem steps_four_of_bmpf_failed {src : Source} (hp : s.port = none) (hi : s.phase = .bmpf) (hf : s.fill = 0#8)
    (ha : s.source.pull 1 = some (.fail, src)) :
    steps 4 s = .next ((s.pullIssued .xBmp).answered .fail src).exhausted.readReturned := by
  rw [steps_add 2 2, steps_two_of_bmpf_failed hp hi ha, andThen_next]
  exact steps_two_of_check_nothing hp rfl hf

end

/-- Settles O12: `FILLED` < 0 never holds, so the loop is left before anything is drained. -/
theorem readZeroDoesNothing : Obligations.ReadZeroDoesNothing := by
  intro s hi hv hp
  have hreturn : steps 2 { s.readStarted 0 with phase := .loop } = .next (s.readStarted 0).readReturned :=
    steps_two_of_loop_full hp rfl (Nat.lt_irrefl 0)
  rw [exec_read 0 s hi hv, andThen_next, hreturn, hi]
  rfl

/-- Settles O13: `LOOP` and `DRAIN` come to a run at once, its bitmap pull fails, and `CHECK` finds nothing produced. -/
theorem readAfterExhaustion : Obligations.ReadAfterExhaustion := by
  intro s n src hi hv hp hf hd hn ha
  have hrun : steps 2 { s.readStarted n with phase := .loop } =
      .next { s.readStarted n with fill := 0#8, phase := .bmpf } :=
    steps_two_of_loop_drained hp rfl hn (hd.trans hf.symm)
  calc andThen (exec (.read n) s) (steps 6)
      = andThen (steps 2 { s.readStarted n with phase := .loop }) (steps 4) := by
        rw [exec_read n s hi hv, andThen_next, steps_add 2 4]
    _ = steps 4 { s.readStarted n with fill := 0#8, phase := .bmpf } := by rw [hrun, andThen_next]
    _ = .next _ := steps_four_of_bmpf_failed hp rfl rfl ha
    _ = _ := by
      simp [State.readReturned, State.exhausted, State.answered, State.pullIssued, State.readStarted, State.record,
        PullPoint.count, hi, hf, hd]

end Sys2Proof.Machine

/-! SUPPORT. The sequencer's steps with no pull (R213, R217 to R219); the settlements of O22 and O26. -/

namespace Sys2Proof.Machine

/-- Settles O22: `LOOP` and `CHECK` each test one condition, and `RET` tests none. -/
theorem loopCheckAndReturnSteps : Obligations.LoopCheckAndReturnSteps := by
  intro s hp
  have hnothing : s.fill = 0#8 ↔ s.fill.toNat = 0 := BitVec.toNat_inj.symm
  refine ⟨fun hi hr => ?_, fun hi hr => ?_, fun hi hf => ?_, fun hi hf => ?_, fun hi => step_of_ret hp hi⟩
  · rw [step_of_loop hp hi, if_pos hr]
  · rw [step_of_loop hp hi, if_neg hr]
  · rw [step_of_check hp hi, if_pos (hnothing.mpr hf)]
  · rw [step_of_check hp hi, if_neg (mt hnothing.mp hf)]

/-- Settles O26: the byte is read from the ring of the state the step starts in. -/
theorem copyStep : Obligations.CopyStep := by
  intro s hp hi
  refine ⟨fun hx hroom => ?_, fun hx => ?_⟩
  · have hc : s.fill.toNat < 144 := by omega
    refine ⟨s.emitByte s.copySource, ?_, ?_⟩
    · rw [← copyIndexAt_eq_ofNat_mod]
      exact s.emit_eq s.copySource hc
    · rw [step_of_copy hp hi, stepCopy_of_lt (BitVec.lt_def.mpr hx) hc, ← hi]
      rfl
  · rw [step_of_copy hp hi, stepCopy_of_eq hx]
    rfl

end Sys2Proof.Machine

/-! SUPPORT. A pull and its answer as two steps, from any phase that issues one (R215, R216, R221); the settlements of O24 and
O25. -/

namespace Sys2Proof.Machine

/-- A pull and its answer touch the phase, the source and the trace. -/
theorem State.pullIssued_answered (s : State) (p : PullPoint) (a : Answer) (src : Source) :
    (s.pullIssued p).answered a src =
      { s with phase := .wait p, source := src, trace := s.trace ++ [.pull p.count, .answer a] } := by
  simp [State.pullIssued, State.answered, State.record]

section

variable {s : State} {p : PullPoint} {src : Source}

/-- A pull that fails aborts the run, whatever the point (R222, R252). -/
theorem steps_two_of_pull_failed (hp : s.port = none) (hpull : step s = .next (s.pullIssued p))
    (ha : s.source.pull p.count = some (.fail, src)) :
    steps 2 s =
      .next { s with
        rd := 0#8, phase := .check, source := src, trace := s.trace ++ [.pull p.count, .answer .fail] } := by
  have habort : step (s.pullIssued p) = .next ((s.pullIssued p).answered .fail src).exhausted :=
    step_of_failedPull hp rfl ha
  rw [State.pullIssued_answered] at habort
  exact steps_two_of_next hpull habort

/-- A pull that succeeds runs the instruction its bytes decode to. -/
theorem steps_two_of_pull_answered {bytes : List Byte} {i : Instr} {t : State} (hp : s.port = none)
    (hpull : step s = .next (s.pullIssued p)) (ha : s.source.pull p.count = some (.ok bytes, src))
    (hd : decode (.stream p bytes) = .ok i)
    (hexec :
      exec i { s with phase := .wait p, source := src, trace := s.trace ++ [.pull p.count, .answer (.ok bytes)] } =
        .next t) :
    steps 2 s = .next t := by
  have hrun : step (s.pullIssued p) = exec i ((s.pullIssued p).answered (.ok bytes) src) :=
    stepRunsThePulledCommand (s.pullIssued p) p bytes src i hp rfl ha hd
  rw [State.pullIssued_answered, hexec] at hrun
  exact steps_two_of_next hpull hrun

/-- In `CMD` with all eight commands done the run is complete (R216 case a). -/
theorem step_of_cmd_last (hp : s.port = none) (hi : s.phase = .cmd) (hb : s.bit = 8#4) :
    step s = .next s.runCompleted := by
  have hlast : s.bit.toNat = Config.cmdsPerRun := congrArg BitVec.toNat hb
  rw [step_of_port_none hp, stepPhase, hi, stepCmd, if_pos hlast]

end

/-- Settles O24: `BMPF` issues the pull, and its answer is a failure or the instruction `BMP`. -/
theorem bitmapFetchSteps : Obligations.BitmapFetchSteps := by
  intro s src hp hi
  have hpull := step_of_bmpf hp hi
  refine ⟨fun ha => ?_, fun b0 ha => ?_⟩
  · exact steps_two_of_pull_failed hp hpull ha
  · exact steps_two_of_pull_answered hp hpull ha (decode_bmp b0) (exec_bmp b0 _)

/-- Settles O25: the bitmap's bit picks the pull, and its answer is a failure or the instruction of that kind. -/
theorem commandDispatchSteps : Obligations.CommandDispatchSteps := by
  intro s src hp hi
  refine ⟨fun hb => step_of_cmd_last hp hi hb, fun hb hl => ?_, fun hb hl => ?_⟩
  · have hpull := step_of_cmd hp hi hb
    rw [State.commandPoint_of_literal hl] at hpull
    refine ⟨fun ha => steps_two_of_pull_failed hp hpull ha, fun b0 hroom ha => ?_⟩
    have hc : s.fill.toNat < 144 := by omega
    exact ⟨s.emitByte b0, s.emit_eq b0 hc,
      steps_two_of_pull_answered hp hpull ha (decode_lit b0) (exec_lit b0 _ hc)⟩
  · have hpull := step_of_cmd hp hi hb
    rw [State.commandPoint_of_copy hl] at hpull
    refine ⟨fun ha => steps_two_of_pull_failed hp hpull ha, fun b0 b1 ha => ?_⟩
    refine steps_two_of_pull_answered hp hpull ha (decode_cpy b0 b1) ?_
    obtain ⟨hc0, hc1⟩ := copyBytes_decoded b0 b1
    rw [exec_cpy, hc0, hc1]
    rfl

end Sys2Proof.Machine

/-! The exception `Exhausted`, from the three pull points (R222, R252); the settlement of O27. -/

namespace Sys2Proof.Machine

/-- Settles O27: whatever the pull point, a failed pull records its answer and takes `State.exhausted`, which writes `RD` and
`PHASE` alone. -/
theorem exhaustedEntry : Obligations.ExhaustedEntry := by
  intro s p src hp hi ha
  have hexhausted : (s.answered .fail src).exhausted =
      { s with rd := 0#8, phase := .check, source := src, trace := s.trace ++ [.answer .fail] } := rfl
  rw [step_of_failedPull hp hi ha, hexhausted]

end Sys2Proof.Machine

/-! `IDLE` with no word at the port takes the host's next input (R292, R295, R63, log 9); the settlement of O30. -/

namespace Sys2Proof.Machine

section

variable {s : State} {rest : List HostInput}

theorem step_of_idle (hp : s.port = none) (hi : s.phase = .idle) : step s = stepIdle s := by
  rw [step_of_port_none hp, stepPhase, hi]

theorem stepIdle_of_request {w : HostWord} (hh : s.host = .request w :: rest) :
    stepIdle s = .next { s with port := some w, host := rest } := by
  rw [stepIdle, hh]

theorem stepIdle_of_attach {src : Source} (hh : s.host = .attach src :: rest) :
    stepIdle s = .next { s with source := src, host := rest } := by
  rw [stepIdle, hh]

end

/-- Settles O30: with no word at the port the step is `stepIdle`, which the head of the host's script decides. -/
theorem idleTakesTheHostsInput : Obligations.IdleTakesTheHostsInput := by
  intro s rest hp hi
  refine ⟨fun w hw => ?_, fun src ha => ?_⟩
  · exact (step_of_idle hp hi).trans (stepIdle_of_request hw)
  · exact (step_of_idle hp hi).trans (stepIdle_of_attach ha)

end Sys2Proof.Machine

/-! The step at a command word, idle time, and the state after power-on (R102, R210, R272); the settlements of O7, O29 and
O32. -/

namespace Sys2Proof.Machine

/-- Settles O7: the word's only decoding is `decodeHost w`, and the step at the port runs that. -/
theorem stepRunsTheHostCommand : Obligations.StepRunsTheHostCommand := by
  intro s w i hp hd
  have hi : decodeHost w = i := Except.ok.inj hd
  rw [step_of_port hp, hi]

theorem stepIdle_of_no_input {s : State} (hh : s.host = []) : stepIdle s = .next s := by
  rw [stepIdle, hh]

/-- A state that a step does not change is not changed by any number of steps. -/
theorem steps_of_step_self {s : State} (h : step s = .next s) (k : Nat) : steps k s = .next s := by
  induction k with
  | zero => rfl
  | succ k ih => rw [steps_succ, h, andThen_next, ih]

/-- Settles O29: with no host input the step of an idle core answers the same state, and so does every further one. -/
theorem idleHoldsItsState : Obligations.IdleHoldsItsState := by
  intro s k hp hi hh
  have hself : step s = .next s := (step_of_idle hp hi).trans (stepIdle_of_no_input hh)
  exact steps_of_step_self hself k

/-- Settles O32: both values stand in the reset state (R210, R26). -/
theorem powerOnState : Obligations.PowerOnState := ⟨rfl, rfl⟩

end Sys2Proof.Machine
